-- ==== Sys2Proof/Word.lean ====
section
/-! DEFINITION. The words of the Z85 codec block, and the five-place tuple that digits, characters and windows share. -/

namespace Sys2Proof

/-- The 32-bit port word: every register, every `CHAR_BUF` entry, every packed value (R24, R30, R8 `u32`). -/
abbrev Word := BitVec 32

/-- One `BYTE_BUF` entry, one `CHR_OUT` register (R30, R24). -/
abbrev Byte := BitVec 8

/-- A 7-bit character code, the width of an `ALPHA` entry and of `MARK_CHAR` (R20, R22). -/
abbrev Code := BitVec 7

/-- The five places of a block on its character side, most significant first: digits `d0..d4`, characters
`c0..c4`, a window, the registers `CHR_IN0..4` and `CHR_OUT0..4` (R12, R28, R55). -/
structure Quint (α : Type) where
  c0 : α
  c1 : α
  c2 : α
  c3 : α
  c4 : α
deriving DecidableEq, Repr

end Sys2Proof
end

