-- ==== Sys2Proof/Syntax.lean ====
section
/-! DEFINITION. The block's commands, one constructor per row of spec/opcode_table.json (R75). -/

namespace Sys2Proof

/-- The nine commands of the opcode map (R75). The variant is part of the command (R72); the one explicit operand
is `rdalpha`'s 7-bit alphabet index `AIDX` (R73). All other operands are implicit (R74). -/
inductive Instr where
  /-- `enc4`: encode `DATA_IN` into `CHR_OUT0..4` (R101). -/
  | enc4
  /-- `dec5`: decode `CHR_IN0..4` into `DATA_OUT` (R106). -/
  | dec5
  /-- `encode.default`: a short tail ends in mark characters (R140). -/
  | encodeDefault
  /-- `encode.strict`: whole blocks only (R141). -/
  | encodeStrict
  /-- `encode.padded`: a short tail is zero-padded (R142). -/
  | encodePadded
  /-- `decode.default`: the last window may end in marks (R150). -/
  | decodeDefault
  /-- `decode.strict`: whole windows only (R151). -/
  | decodeStrict
  /-- `decode.padded`: a short tail is padded with `ALPHA(0)` (R152). -/
  | decodePadded
  /-- `rdalpha a`: read `ALPHA(a)` into `CHR_OUT0` (R107). -/
  | rdalpha (aidx : Code)
deriving DecidableEq, Repr

end Sys2Proof
end

