-- ==== Sys2Proof/WellFormed.lean ====
section
/-! DEFINITION. Which terms of `Instr` are commands of the block: those that have a legal word (R75). -/

namespace Sys2Proof

/-- The one check on an instruction's fields: `AIDX` is `0..84`, for "`85..127` are reserved" (R71, R75). -/
def Instr.wellFormed : Instr → Bool
  | .enc4 => true
  | .dec5 => true
  | .encodeDefault => true
  | .encodeStrict => true
  | .encodePadded => true
  | .decodeDefault => true
  | .decodeStrict => true
  | .decodePadded => true
  | .rdalpha aidx => decide (aidx.toNat < 85)

end Sys2Proof
end

