-- ==== Sys2Proof/Decode.lean ====
section
/-! DEFINITION. The command word (R71): its fields, the total decoder (R77), and the encoder (R75). -/

namespace Sys2Proof

/-- `OP`, bits 3:0 (R71). -/
def opField (w : Word) : BitVec 4 := w.extractLsb' 0 4

/-- `VAR`, bits 5:4 (R71). -/
def varField (w : Word) : BitVec 2 := w.extractLsb' 4 2

/-- `RES0`, bits 7:6 (R71). -/
def res0Field (w : Word) : BitVec 2 := w.extractLsb' 6 2

/-- `AIDX`, bits 14:8 (R71, R73). -/
def aidxField (w : Word) : Code := w.extractLsb' 8 7

/-- `RES1`, bits 31:15 (R71). -/
def res1Field (w : Word) : BitVec 17 := w.extractLsb' 15 17

/-- Why a word is illegal, after R76's list. Every reason has the one effect R76 gives, so the choice among
several reasons that hold together is the model's and is not observable (log entry 11). -/
inductive IllegalWord where
  /-- A nonzero `RES0` or `RES1`. -/
  | reservedBits
  /-- `OP` = 0x0 or 0x6..0xF. -/
  | reservedOp
  /-- `VAR` = 3, or a nonzero `VAR` for `ENC4`, `DEC5` or `RDALPHA`. -/
  | badVariant
  /-- A nonzero `AIDX` outside `RDALPHA`, or `AIDX >= 85` for it. -/
  | badAlphabetIndex
deriving DecidableEq, Repr

/-- What a word decodes to: `Command | Illegal` (R77). -/
inductive Decoded where
  | command (i : Instr)
  | illegal (why : IllegalWord)
deriving DecidableEq, Repr

/-- The command, where there is one. -/
def Decoded.command? : Decoded → Option Instr
  | .command i => some i
  | .illegal _ => none

/-- A command that takes neither `VAR` nor `AIDX`: both must be 0 (R72, R73). -/
def decodePlain (w : Word) (i : Instr) : Decoded :=
  if varField w ≠ 0 then .illegal .badVariant
  else if aidxField w ≠ 0 then .illegal .badAlphabetIndex
  else .command i

/-- A command that takes `VAR` and no `AIDX`: 0 Default, 1 Strict, 2 Padded, 3 reserved (R71, R77). -/
def decodeVariant (w : Word) (default strict padded : Instr) : Decoded :=
  if aidxField w ≠ 0 then .illegal .badAlphabetIndex
  else if varField w = 0 then .command default
  else if varField w = 1 then .command strict
  else if varField w = 2 then .command padded
  else .illegal .badVariant

/-- `RDALPHA`: `VAR` must be 0 and `AIDX` below 85 (R77). -/
def decodeRdalpha (w : Word) : Decoded :=
  if varField w ≠ 0 then .illegal .badVariant
  else if (aidxField w).toNat < 85 then .command (.rdalpha (aidxField w))
  else .illegal .badAlphabetIndex

/-- R77: decode, a total function of the word. -/
def decode (w : Word) : Decoded :=
  if res0Field w ≠ 0 ∨ res1Field w ≠ 0 then .illegal .reservedBits
  else if opField w = 0x1 then decodePlain w .enc4
  else if opField w = 0x2 then decodePlain w .dec5
  else if opField w = 0x3 then decodeVariant w .encodeDefault .encodeStrict .encodePadded
  else if opField w = 0x4 then decodeVariant w .decodeDefault .decodeStrict .decodePadded
  else if opField w = 0x5 then decodeRdalpha w
  else .illegal .reservedOp

/-- A word laid out from its five fields (R71), `RES1` first as it lies highest. -/
def commandWord (op : BitVec 4) (var : BitVec 2) (aidx : Code) : Word :=
  (0 : BitVec 17) ++ aidx ++ (0 : BitVec 2) ++ var ++ op

/-- The word of an instruction, row by row of R75. -/
def encode : Instr → Word
  | .enc4 => commandWord 0x1 0 0
  | .dec5 => commandWord 0x2 0 0
  | .encodeDefault => commandWord 0x3 0 0
  | .encodeStrict => commandWord 0x3 1 0
  | .encodePadded => commandWord 0x3 2 0
  | .decodeDefault => commandWord 0x4 0 0
  | .decodeStrict => commandWord 0x4 1 0
  | .decodePadded => commandWord 0x4 2 0
  | .rdalpha aidx => commandWord 0x5 0 aidx

/-- The instruction of a row of spec/opcode_table.json whose bits are `w`, bit 0 the least significant (R78:
every command is one 32-bit word). The word goes to the decoder as the host writes it to `CMD` (log entry 10). -/
def decodeTableWord (nbits w : Nat) : Option Instr :=
  if nbits ≤ 32 ∧ w < 2 ^ nbits then (decode (BitVec.ofNat 32 w)).command? else none

end Sys2Proof
end

