-- ==== Sys2Proof/Config.lean ====
section
/-! DEFINITION. The block's parameters (R6): what an implementation fixes. The two OPEN ones are opaque constants,
so nothing can be proved of their values. -/

namespace Sys2Proof

/-- The parameters a model of the block takes (R6): `ALPHABET`, `MARK_CHAR` and `BUF_CAP`. "Exactly 85 entries"
and the 7-bit width (R20, R22) are in the types; the other constraints are `Params.Valid`. -/
structure Params where
  /-- `ALPHABET`: the character of each digit value (R20). -/
  alphabet : Vector Code 85
  /-- `MARK_CHAR`: the Default variant's mark character (R22). -/
  markChar : Code
  /-- `BUF_CAP`: the entries in each of `BYTE_BUF` and `CHAR_BUF` (R6, R30). -/
  bufCap : Nat
deriving DecidableEq, Repr

/-- The place of a printable character's class in the source's class order, "digits, lowercase, uppercase,
punctuation" (R20). DEDUCED (log entry 12): punctuation is every printable code of no other class. -/
def classRank (c : Code) : Nat :=
  if 0x30 ≤ c.toNat ∧ c.toNat ≤ 0x39 then 0
  else if 0x61 ≤ c.toNat ∧ c.toNat ≤ 0x7A then 1
  else if 0x41 ≤ c.toNat ∧ c.toNat ≤ 0x5A then 2
  else 3

/-- The constraints the spec puts on the parameters: R20 (pairwise distinct, printable, in class order),
R22 (the mark is not in the alphabet), R6 (`BUF_CAP < 2^32`). -/
structure Params.Valid (p : Params) : Prop where
  distinct : p.alphabet.toList.Nodup
  printable : ∀ c ∈ p.alphabet.toList, 0x20 ≤ c.toNat ∧ c.toNat ≤ 0x7E
  classOrder : p.alphabet.toList.Pairwise (fun a b => classRank a ≤ classRank b)
  markOutside : p.markChar ∉ p.alphabet.toList
  capBound : p.bufCap < 2 ^ 32

/-- The chip's choice of mark character before R22's constraint is imposed on it. OPEN in the spec (R6, D2):
no body, so no value of it can be proved (log entry 3). -/
opaque Config.markChoice : Code

/-- The chip's choice of buffer capacity before R6's bound is imposed on it. OPEN in the spec (R6, D4):
no body, so no value of it can be proved (log entry 4). -/
opaque Config.capChoice : Nat

end Sys2Proof
end

