-- ==== Sys2Proof/Machine/Alphabet.lean ====
section
/-! DEFINITION. The two ROMs as functions of the parameters (R20, R21), the constants of R6, and the parameters
of the chip. -/

namespace Sys2Proof.Machine

/-- `INVALID`, the reverse index's sentinel (R6, R21, D3). -/
def invalidEntry : Byte := 0xFF

/-- `FILL_DIGIT`, the digit that stands for a mark position in Default decode (R6, R135). -/
def fillDigit : Nat := 84

/-- `ALPHA(v)`, the alphabet ROM (R20). -/
def alpha (p : Params) (v : Fin 85) : Code := p.alphabet[v.val]

/-- `PAD_CHAR = ALPHA(0)` (R6, R152). -/
def padChar (p : Params) : Code := alpha p 0

/-- `INDEX(c)`, the reverse-index ROM by its result: `INDEX(c) = v` when `ALPHABET[v] = c`, else `INVALID` (R21).
`buildIndex` is the construction the spec gives. -/
def index (p : Params) (c : Code) : Byte :=
  match p.alphabet.toList.findIdx? (fun a => a == c) with
  | some v => BitVec.ofNat 8 v
  | none => invalidEntry

/-- One write of the fill pass: entry `ALPHABET[i]` becomes `i` (R21, R191). -/
def buildIndexEntry (p : Params) (t : Vector Byte 128) (i : Fin 85) : Vector Byte 128 :=
  t.set (alpha p i).toNat (BitVec.ofNat 8 i.val) (alpha p i).isLt

/-- R21's fill pass (R191): `INVALID` into all 128 entries, then `i` into entry `ALPHABET[i]` for `i = 0..84`. -/
def buildIndex (p : Params) : Vector Byte 128 :=
  (List.finRange 85).foldl (buildIndexEntry p) (Vector.replicate 128 invalidEntry)

/-- The default `ALPHABET`, the ZeroMQ Z85 string, by class (R6, R20, I22). PRESUMED (log entry 2): the spec takes it
"from general knowledge, not in source". -/
def zeroMqDigits : List Code :=
  [0x30, 0x31, 0x32, 0x33, 0x34, 0x35, 0x36, 0x37, 0x38, 0x39]

/-- `ALPHA(10..35)` = 'a'..'z' (R20). -/
def zeroMqLower : List Code :=
  [0x61, 0x62, 0x63, 0x64, 0x65, 0x66, 0x67, 0x68, 0x69, 0x6A, 0x6B, 0x6C, 0x6D,
   0x6E, 0x6F, 0x70, 0x71, 0x72, 0x73, 0x74, 0x75, 0x76, 0x77, 0x78, 0x79, 0x7A]

/-- `ALPHA(36..61)` = 'A'..'Z' (R20). -/
def zeroMqUpper : List Code :=
  [0x41, 0x42, 0x43, 0x44, 0x45, 0x46, 0x47, 0x48, 0x49, 0x4A, 0x4B, 0x4C, 0x4D,
   0x4E, 0x4F, 0x50, 0x51, 0x52, 0x53, 0x54, 0x55, 0x56, 0x57, 0x58, 0x59, 0x5A]

/-- `ALPHA(62..84)`, the punctuation, in R20's order. -/
def zeroMqPunctuation : List Code :=
  [0x2E, 0x2D, 0x3A, 0x2B, 0x3D, 0x5E, 0x21, 0x2F, 0x2A, 0x3F, 0x26, 0x3C,
   0x3E, 0x28, 0x29, 0x5B, 0x5D, 0x7B, 0x7D, 0x40, 0x25, 0x24, 0x23]

/-- The default `ALPHABET` (R6, R20). PRESUMED (log entry 2). -/
def zeroMqAlphabet : Vector Code 85 :=
  ⟨⟨zeroMqDigits ++ zeroMqLower ++ zeroMqUpper ++ zeroMqPunctuation⟩, rfl⟩

/-- The chip's mark character: its open choice where R22 allows it, and the control code 0x7F, which no alphabet
holds, where it does not. Every legal mark is the value for some choice (log entry 3). -/
def chipMarkChar : Code :=
  if Config.markChoice ∈ zeroMqAlphabet.toList then 0x7F else Config.markChoice

/-- The chip's buffer capacity: its open choice, below 2^32 (R6). Every legal capacity is the value for some
choice (log entry 4). -/
def chipBufCap : Nat := Config.capChoice % 2 ^ 32

/-- The parameters of the chip: the default alphabet (log entry 2), and a legal mark and capacity of which nothing
else is known. -/
def chipParams : Params := ⟨zeroMqAlphabet, chipMarkChar, chipBufCap⟩

end Sys2Proof.Machine
end

