-- ==== Sys2Proof/Machine/State.lean ====
section
/-! DEFINITION. The state of the block and of its host port (R34), the reasons a step stops, and reset (R190). -/

namespace Sys2Proof.Machine

/-- A buffer of `w`-bit entries: the entries written since reset, as (index, value) pairs with strictly rising
indices (`Memory.wf`). An index that is not listed was never written, and has no value (R34, R190). -/
abbrev Memory (w : Nat) := List (Nat × BitVec w)

/-- The registers of R24's table. -/
inductive Reg where
  | cmd
  | status
  | errWin
  | dataIn
  | dataOut
  | chrIn0
  | chrIn1
  | chrIn2
  | chrIn3
  | chrIn4
  | chrOut0
  | chrOut1
  | chrOut2
  | chrOut3
  | chrOut4
  | inLen
  | outLen
deriving DecidableEq, Repr

/-- The two buffers (R30). -/
inductive Buffer where
  | byteBuf
  | charBuf
deriving DecidableEq, Repr

/-- The outcome kinds of a command that `STATUS.ERR` reports (R25, R171). -/
inductive ErrKind where
  /-- `NONE`: the command succeeded. -/
  | success
  /-- `INVALID_LENGTH`. -/
  | invalidLength
  /-- `INVALID_CHARACTER`. -/
  | invalidCharacter
  /-- `ILLEGAL_COMMAND`. -/
  | illegalCommand
  /-- `CAPACITY_EXCEEDED`. -/
  | capacityExceeded
deriving DecidableEq, Repr

/-- One interaction of the host with the block (R64, R79), and its reset input (R190, R194). A write to `CMD`
(offset 0x00) issues a command (R70). -/
inductive HostAction where
  /-- `wr`: write a 32-bit value to the register at a byte offset of `REG` (R51). -/
  | regWrite (offset : Nat) (value : Word)
  /-- `rd`: read the register at a byte offset of `REG` (R51). -/
  | regRead (offset : Nat)
  /-- `wrb`, `wrc`: write a value, truncated to the entry's width, to a buffer entry (R52). -/
  | bufWrite (buffer : Buffer) (i : Nat) (value : Word)
  /-- `rdb`, `rdc`: read a buffer entry (R52). -/
  | bufRead (buffer : Buffer) (i : Nat)
  /-- Reset, which comes only between commands (R190, R194) (log entry 7). -/
  | reset
deriving DecidableEq, Repr

/-- What a host read returns: one whole register or `CHAR_BUF` entry, or one whole `BYTE_BUF` entry (R51, R52). -/
inductive Reply where
  | word (v : Word)
  | byte (v : Byte)
deriving DecidableEq, Repr

/-- The state (R34), the parameters, which no step changes (log entry 1), and the host's side of the port (log
entry 5). -/
structure State where
  /-- The parameters (R6): configuration, held here so that a claim about every state is one about every legal
  choice of them. -/
  params : Params
  /-- `STATUS.ERR` (R25). -/
  err : BitVec 3
  /-- `ERR_WIN` (R26). -/
  errWin : Word
  /-- `DATA_IN` (R27). -/
  dataIn : Word
  /-- `DATA_OUT` (R27). -/
  dataOut : Word
  /-- `CHR_IN0..4` (R28). -/
  chrIn : Quint Word
  /-- `CHR_OUT0..4` (R28). -/
  chrOut : Quint Byte
  /-- `IN_LEN` (R29). -/
  inLen : Word
  /-- `OUT_LEN` (R29). -/
  outLen : Word
  /-- `BYTE_BUF` (R30). -/
  byteBuf : Memory 8
  /-- `CHAR_BUF` (R30). -/
  charBuf : Memory 32
  /-- The host's actions still to come, the next one first. The model's own field. -/
  pending : List HostAction
  /-- What the host's reads have returned, the first one first. The model's own field. -/
  replies : List Reply
deriving DecidableEq, Repr

/-- The machine stops with a fault. -/
inductive Fault where
  /-- Raised by the six buffer commands and by a host buffer read that reads an entry never written since reset
  (R34, R190, R193, R198, I3). SAFE: on the chip the read returns an unspecified value and goes on (log entry 8). -/
  | unwrittenEntry (buffer : Buffer)
deriving DecidableEq, Repr

/-- The machine gives the action no step. -/
inductive Refusal where
  /-- Raised by an arm of `exec` whose instruction has no meaning yet. SAFE. No arm raises it. -/
  | notModelled (mnemonic : String)
  /-- Raised by a host register access at an offset that is not a multiple of 4 (R51, I18). SAFE: "the host must
  never issue one". -/
  | misalignedOffset
  /-- Raised by a host buffer access at an index `>= BUF_CAP` (R52, I18). SAFE. -/
  | indexOutOfRange (buffer : Buffer)
deriving DecidableEq, Repr

/-- The outcome of a step. -/
abbrev StepResult := Host.Outcome State Fault Refusal

/-- R190: every register 0 and every buffer entry never written, for a block of the given parameters, with no host
action to come and no reply given. -/
def State.resetWith (p : Params) : State :=
  { params := p
    err := 0
    errWin := 0
    dataIn := 0
    dataOut := 0
    chrIn := ⟨0, 0, 0, 0, 0⟩
    chrOut := ⟨0, 0, 0, 0, 0⟩
    inLen := 0
    outLen := 0
    byteBuf := []
    charBuf := []
    pending := []
    replies := [] }

/-- The chip right after reset (R190). -/
def State.reset : State := State.resetWith chipParams

end Sys2Proof.Machine
end

