-- ==== Sys2Proof/Machine/Flags.lean ====
section
/-! DEFINITION. The only flag-like state, `STATUS.ERR` (R25, R32), and its companion `ERR_WIN` (R26): the codes, the
status word, and the one operation that writes them. -/

namespace Sys2Proof.Machine

/-- The code of an outcome in `STATUS.ERR` (R25, R171). -/
def ErrKind.code : ErrKind → BitVec 3
  | .success => 0
  | .invalidLength => 1
  | .invalidCharacter => 2
  | .illegalCommand => 3
  | .capacityExceeded => 4

/-- `STATUS` as the host reads it: `ERR` in bits 2:0, bits 31:3 read 0 (R25). -/
def statusWord (s : State) : Word := s.err.setWidth 32

/-- What every command that completes writes (R170): the outcome's code and the window index. -/
def report (s : State) (kind : ErrKind) (win : Nat) : State :=
  { s with err := kind.code, errWin := BitVec.ofNat 32 win }

end Sys2Proof.Machine
end

