-- ==== Sys2Proof/Machine/Ops.lean ====
section
/-! DEFINITION. The named operations over buffers and registers, and the two ways a command ends: `raise Err`
(R10, R170, R174), which is this block's only exception, and success (R130's `Commit`). The block has no trap, no
saved state and no return from one (R176, R177). -/

namespace Sys2Proof.Machine

/-! ## Buffers -/

/-- `MemRead(S, i, 1)` (R54): the entry at index `i`, or none where it was never written. -/
def Memory.read {w : Nat} : Memory w → Nat → Option (BitVec w)
  | [], _ => none
  | (a, v) :: m, i => if i = a then some v else Memory.read m i

/-- `MemWrite(S, i, 1, v)` (R54), keeping the indices strictly rising. -/
def Memory.write {w : Nat} : Memory w → Nat → BitVec w → Memory w
  | [], i, v => [(i, v)]
  | (a, x) :: m, i, v =>
    if i < a then (i, v) :: (a, x) :: m
    else if i = a then (i, v) :: m
    else (a, x) :: Memory.write m i v

/-- The canonical form: indices strictly rising. An unlisted entry has no value, so no listed entry equals one. -/
def Memory.wf {w : Nat} : Memory w → Bool
  | [] => true
  | [_] => true
  | (a, _) :: (b, y) :: m => decide (a < b) && Memory.wf ((b, y) :: m)

/-- Every listed index is below the buffer's capacity (R30). -/
def Memory.within {w : Nat} (cap : Nat) (m : Memory w) : Bool := m.all (fun e => decide (e.1 < cap))

/-- The `n` entries from index `i` on, or none where one of them was never written. -/
def Memory.readRange {w : Nat} (m : Memory w) : Nat → Nat → Option (List (BitVec w))
  | _, 0 => some []
  | i, n + 1 =>
    match m.read i with
    | none => none
    | some v => (Memory.readRange m (i + 1) n).map (fun vs => v :: vs)

/-- The values written to consecutive entries from index `i` on, in rising order (R130's `Commit` loop). -/
def Memory.writeRange {w : Nat} (m : Memory w) : Nat → List (BitVec w) → Memory w
  | _, [] => m
  | i, v :: vs => Memory.writeRange (m.write i v) (i + 1) vs

/-! ## Registers -/

/-- The register at a byte offset, by R24's table; none at a reserved offset (R53). -/
def regAt (offset : Nat) : Option Reg :=
  if offset = 0x00 then some .cmd
  else if offset = 0x04 then some .status
  else if offset = 0x08 then some .errWin
  else if offset = 0x0C then some .dataIn
  else if offset = 0x10 then some .dataOut
  else if offset = 0x14 then some .chrIn0
  else if offset = 0x18 then some .chrIn1
  else if offset = 0x1C then some .chrIn2
  else if offset = 0x20 then some .chrIn3
  else if offset = 0x24 then some .chrIn4
  else if offset = 0x28 then some .chrOut0
  else if offset = 0x2C then some .chrOut1
  else if offset = 0x30 then some .chrOut2
  else if offset = 0x34 then some .chrOut3
  else if offset = 0x38 then some .chrOut4
  else if offset = 0x3C then some .inLen
  else if offset = 0x40 then some .outLen
  else none

/-- A register as the host reads it, zero-extended to the 32-bit port (R24); `CMD` reads 0 (R53). -/
def readReg (s : State) : Reg → Word
  | .cmd => 0
  | .status => statusWord s
  | .errWin => s.errWin
  | .dataIn => s.dataIn
  | .dataOut => s.dataOut
  | .chrIn0 => s.chrIn.c0
  | .chrIn1 => s.chrIn.c1
  | .chrIn2 => s.chrIn.c2
  | .chrIn3 => s.chrIn.c3
  | .chrIn4 => s.chrIn.c4
  | .chrOut0 => s.chrOut.c0.setWidth 32
  | .chrOut1 => s.chrOut.c1.setWidth 32
  | .chrOut2 => s.chrOut.c2.setWidth 32
  | .chrOut3 => s.chrOut.c3.setWidth 32
  | .chrOut4 => s.chrOut.c4.setWidth 32
  | .inLen => s.inLen
  | .outLen => s.outLen

/-- A register's new value after a host write: the `RW` registers take it, an `RO` register ignores it (R24, R53).
A write to `CMD` stores nothing here: it issues a command (R70), which is the host port's work. -/
def writeReg (s : State) (v : Word) : Reg → State
  | .cmd => s
  | .status => s
  | .errWin => s
  | .dataIn => { s with dataIn := v }
  | .dataOut => s
  | .chrIn0 => { s with chrIn := { s.chrIn with c0 := v } }
  | .chrIn1 => { s with chrIn := { s.chrIn with c1 := v } }
  | .chrIn2 => { s with chrIn := { s.chrIn with c2 := v } }
  | .chrIn3 => { s with chrIn := { s.chrIn with c3 := v } }
  | .chrIn4 => { s with chrIn := { s.chrIn with c4 := v } }
  | .chrOut0 => s
  | .chrOut1 => s
  | .chrOut2 => s
  | .chrOut3 => s
  | .chrOut4 => s
  | .inLen => { s with inLen := v }
  | .outLen => s

/-! ## How a command ends -/

/-- `raise Err(kind, win)` (R10, R170): the error and its window are recorded and nothing else changes (R174). -/
def raiseErr (s : State) (kind : ErrKind) (win : Nat) : State := report s kind win

/-- `raise Err(kind, win)` of an `ENCODE.*` or `DECODE.*`: also `OUT_LEN <- 0` (R174). -/
def raiseBufferErr (s : State) (kind : ErrKind) (win : Nat) : State := { raiseErr s kind win with outLen := 0 }

/-- What a command that succeeds writes to the status: `ERR <- NONE`, `ERR_WIN <- 0` (R170). -/
def succeed (s : State) : State := report s .success 0

/-- `Commit(out)` of an `ENCODE.*` (R130): the output goes to `CHAR_BUF[0..len(out))`. -/
def commitChars (s : State) (out : List Word) : State :=
  succeed { s with charBuf := s.charBuf.writeRange 0 out, outLen := BitVec.ofNat 32 out.length }

/-- `Commit(out)` of a `DECODE.*` (R130): the output goes to `BYTE_BUF[0..len(out))`. -/
def commitBytes (s : State) (out : List Byte) : State :=
  succeed { s with byteBuf := s.byteBuf.writeRange 0 out, outLen := BitVec.ofNat 32 out.length }

end Sys2Proof.Machine
end

