-- ==== Sys2Proof/Machine/Operands.lean ====
section
/-! DEFINITION. The operand forms: five-place tuples, packed values and their bytes (R55), and the windows of a string
(R130). -/

namespace Sys2Proof

/-- The five places as a list, the first character first. -/
def Quint.toList {α : Type} (q : Quint α) : List α := [q.c0, q.c1, q.c2, q.c3, q.c4]

/-- The same function at each of the five places. -/
def Quint.map {α β : Type} (f : α → β) (q : Quint α) : Quint β := ⟨f q.c0, f q.c1, f q.c2, f q.c3, f q.c4⟩

/-- The five values, where all five are there. -/
def Quint.allSome {α : Type} (q : Quint (Option α)) : Option (Quint α) :=
  q.c0.bind fun a => q.c1.bind fun b => q.c2.bind fun c => q.c3.bind fun d => q.c4.bind fun e =>
    some ⟨a, b, c, d, e⟩

end Sys2Proof

namespace Sys2Proof.Machine

/-- `Pack(b0,b1,b2,b3) = b0<<24 | b1<<16 | b2<<8 | b3`, "byte 0 = most significant" (R55, R130). -/
def pack (b0 b1 b2 b3 : Byte) : Word := b0 ++ b1 ++ b2 ++ b3

/-- `Bytes(V) = [V[31:24], V[23:16], V[15:8], V[7:0]]` (R55, R130). -/
def bytesOf (v : Word) : List Byte :=
  [v.extractLsb' 24 8, v.extractLsb' 16 8, v.extractLsb' 8 8, v.extractLsb' 0 8]

/-- The packed value of a block of fewer than four bytes, "padding the missing low-order bytes with zero"
(R131, R142). -/
def packPadded (t : List Byte) : Word := pack (t.getD 0 0) (t.getD 1 0) (t.getD 2 0) (t.getD 3 0)

/-- `ceil4(n)` (R130). -/
abbrev ceil4 (n : Nat) : Nat := (n + 3) / 4

/-- `ceil5(L)` (R130). -/
abbrev ceil5 (n : Nat) : Nat := (n + 4) / 5

/-- `Window(j)`: the five entries `5j..5j+4` of `CHAR_BUF` (R130), all five read before any is examined, or none
where one of them was never written. -/
def windowAt (m : Memory 32) (j : Nat) : Option (Quint Word) :=
  Quint.allSome ⟨m.read (5 * j), m.read (5 * j + 1), m.read (5 * j + 2), m.read (5 * j + 3), m.read (5 * j + 4)⟩

/-- `s[5j..5j+5)`: window `j` of a string (R152). -/
def windowOf (s : List Word) (j : Nat) : Option (Quint Word) :=
  Quint.allSome ⟨s[5 * j]?, s[5 * j + 1]?, s[5 * j + 2]?, s[5 * j + 3]?, s[5 * j + 4]?⟩

end Sys2Proof.Machine
end

