-- ==== Sys2Proof/Machine/Cores.lean ====
section
/-! DEFINITION. The block cores and their commands: ENC4, DEC5, RDALPHA (40_core_codec.md). -/

namespace Sys2Proof.Machine

/-! ## The encoder core (R100) -/

/-- The division chain ends below 85: `d0 <= 82` (R102). -/
theorem topDigit_lt (w : Word) : w.toNat / 85 / 85 / 85 / 85 < 85 := by
  have := w.isLt
  omega

/-- The digits of R100: repeated remainder and division by 85, `d4` first out, "remaining high digits" in `d0`. -/
def encDigits (w : Word) : Quint (Fin 85) :=
  ⟨⟨w.toNat / 85 / 85 / 85 / 85, topDigit_lt w⟩,
   ⟨w.toNat / 85 / 85 / 85 % 85, Nat.mod_lt _ (by decide)⟩,
   ⟨w.toNat / 85 / 85 % 85, Nat.mod_lt _ (by decide)⟩,
   ⟨w.toNat / 85 % 85, Nat.mod_lt _ (by decide)⟩,
   ⟨w.toNat % 85, Nat.mod_lt _ (by decide)⟩⟩

/-- `EncBlock(W).chars` (R100): each digit through the alphabet. -/
def encChars (p : Params) (w : Word) : Quint Code := (encDigits w).map (alpha p)

/-! ## The decoder core (R103) -/

/-- Steps 1 and 2 of R103 for one code: rejected when it is `>= 128` (before any lookup, R23) or maps to `INVALID`;
else its digit value. -/
def lookup (p : Params) (k : Word) : Option Nat :=
  if 128 ≤ k.toNat then none
  else if index p (k.setWidth 7) = invalidEntry then none
  else some (index p (k.setWidth 7)).toNat

/-- Step 3 of R103: `acc`, exact (R7). -/
def accumulate (v : Quint Nat) : Nat :=
  v.c0 * 85 ^ 4 + v.c1 * 85 ^ 3 + v.c2 * 85 ^ 2 + v.c3 * 85 + v.c4

/-- Steps 3 and 4 of R103: `V = acc mod 2^32`, "the final truncation" (R105). -/
def valueOf (v : Quint Nat) : Word := BitVec.ofNat 32 (accumulate v)

/-- `DecBlock(k0..k4)` (R103): `Ok(V)`, or none for `BadChar` (R104). -/
def decBlock (p : Params) (k : Quint Word) : Option Word := (Quint.allSome (k.map (lookup p))).map valueOf

/-! ## The commands -/

/-- ENC4 (R101). -/
def execEnc4 (s : State) : StepResult :=
  .next (succeed { s with chrOut := (encChars s.params s.dataIn).map (fun c => c.setWidth 8) })

/-- DEC5 (R106). -/
def execDec5 (s : State) : StepResult :=
  match decBlock s.params s.chrIn with
  | none => .next (raiseErr s .invalidCharacter 0)
  | some v => .next (succeed { s with dataOut := v })

/-- RDALPHA (R107). A term whose index has no legal word fails as the illegal word would (R76; log entry 9). -/
def execRdalpha (aidx : Code) (s : State) : StepResult :=
  if h : aidx.toNat < 85 then
    .next (succeed { s with chrOut := { s.chrOut with c0 := (alpha s.params ⟨aidx.toNat, h⟩).setWidth 8 } })
  else .next (raiseErr s .illegalCommand 0)

end Sys2Proof.Machine
end

