-- ==== Sys2Proof/Machine/BufferEncode.lean ====
section
/-! DEFINITION. The ENCODE commands (41_buffer_codec.md R131, R140-R142). -/

namespace Sys2Proof.Machine

/-- A character as a `CHAR_BUF` entry holds it: `zext_32` of a 7-bit code (R130). -/
def charEntry (c : Code) : Word := c.setWidth 32

/-- `EncBlock(W).chars` as `CHAR_BUF` entries (R100, R130). -/
def blockEntries (p : Params) (w : Word) : List Word := (encChars p w).toList.map charEntry

/-- `EncTail(t)` (R131): the zero-padded block's first `r + 1` characters, then `4 - r` marks. -/
def encTail (p : Params) (t : List Byte) : List Word :=
  (blockEntries p (packPadded t)).take (t.length + 1) ++ List.replicate (4 - t.length) (charEntry p.markChar)

/-- The Padded variant's tail: the zero-padded block, encoded whole (R142). -/
def padTail (p : Params) (t : List Byte) : List Word := blockEntries p (packPadded t)

/-- The output of R140-R142: every full block encoded in order, then the variant's tail where one is left. -/
def encodeBytes (p : Params) (tail : List Byte → List Word) : List Byte → List Word
  | b0 :: b1 :: b2 :: b3 :: rest => blockEntries p (pack b0 b1 b2 b3) ++ encodeBytes p tail rest
  | [] => []
  | t => tail t

/-- The reads and the commit of an ENCODE whose checks have passed: `BYTE_BUF[0..IN_LEN)` in, `CHAR_BUF` out (R54). -/
def encodeBuffer (s : State) (tail : List Byte → List Word) : StepResult :=
  match s.byteBuf.readRange 0 s.inLen.toNat with
  | none => .fault (.unwrittenEntry .byteBuf)
  | some bs => .next (commitChars s (encodeBytes s.params tail bs))

/-- ENCODE.DEFAULT (R140). -/
def execEncodeDefault (s : State) : StepResult :=
  if s.params.bufCap < s.inLen.toNat then .next (raiseBufferErr s .capacityExceeded 0)
  else if s.params.bufCap < 5 * ceil4 s.inLen.toNat then .next (raiseBufferErr s .capacityExceeded 0)
  else encodeBuffer s (encTail s.params)

/-- ENCODE.STRICT (R141): the length is checked between the two capacity checks (R173). No tail is ever left. -/
def execEncodeStrict (s : State) : StepResult :=
  if s.params.bufCap < s.inLen.toNat then .next (raiseBufferErr s .capacityExceeded 0)
  else if s.inLen.toNat % 4 ≠ 0 then .next (raiseBufferErr s .invalidLength 0)
  else if s.params.bufCap < 5 * (s.inLen.toNat / 4) then .next (raiseBufferErr s .capacityExceeded 0)
  else encodeBuffer s (fun _ => [])

/-- ENCODE.PADDED (R142). -/
def execEncodePadded (s : State) : StepResult :=
  if s.params.bufCap < s.inLen.toNat then .next (raiseBufferErr s .capacityExceeded 0)
  else if s.params.bufCap < 5 * ceil4 s.inLen.toNat then .next (raiseBufferErr s .capacityExceeded 0)
  else encodeBuffer s (padTail s.params)

end Sys2Proof.Machine
end

