-- ==== Sys2Proof/Machine/BufferDecode.lean ====
section
/-! DEFINITION. The DECODE commands (41_buffer_codec.md R133-R135, R150-R152). -/

namespace Sys2Proof.Machine

/-- `DecBlock` of a window, and the bytes of its value (R103, R130); none for `BadChar`. -/
def decWindow (p : Params) (t : Quint Word) : Option (List Byte) := (decBlock p t).map bytesOf

/-- `m(t)`: the number of trailing entries equal to `MARK_CHAR` (R133). -/
def markCount (p : Params) (t : Quint Word) : Nat :=
  (t.toList.reverse.takeWhile (fun k => k == charEntry p.markChar)).length

/-- The digit at position `i` of a last window with `m` marks: `FILL_DIGIT` at the mark positions, which are never
looked up, and the looked-up value elsewhere (R134, R135). -/
def tailDigit (p : Params) (m i : Nat) (k : Word) : Option Nat :=
  if 5 - m ≤ i then some fillDigit else lookup p k

/-- The digits of a last window with `m` marks (R134). -/
def tailDigits (p : Params) (m : Nat) (t : Quint Word) : Option (Quint Nat) :=
  Quint.allSome ⟨tailDigit p m 0 t.c0, tailDigit p m 1 t.c1, tailDigit p m 2 t.c2, tailDigit p m 3 t.c3,
    tailDigit p m 4 t.c4⟩

/-- `DecTail(t)` (R134): a window with no mark is a full block; one with 4 or 5 marks is `BadChar`; else the top
`4 - m` bytes of the filled value. -/
def decTail (p : Params) (t : Quint Word) : Option (List Byte) :=
  if markCount p t = 0 then decWindow p t
  else if 4 ≤ markCount p t then none
  else (tailDigits p (markCount p t) t).map (fun v => (bytesOf (valueOf v)).take (4 - markCount p t))

/-- How a loop over windows ends. -/
inductive DecodeRun where
  /-- Every window decoded: the output. -/
  | output (bytes : List Byte)
  /-- `BadChar` in the named window, the lowest that fails (R173). -/
  | badChar (j : Nat)
  /-- A window with an entry never written was read (I3). -/
  | unwritten
deriving DecidableEq, Repr

/-- The output so far, in front of what the rest of the loop gives. -/
def DecodeRun.prepend (bs : List Byte) : DecodeRun → DecodeRun
  | .output out => .output (bs ++ out)
  | .badChar j => .badChar j
  | .unwritten => .unwritten

/-- The loop of R150-R152 over `k` windows from window `j` on, rising: `window` reads one, `full` decodes a window
that is not the last, `last` the last one. It ends at the first window that is unwritten or fails. -/
def decodeWindows (window : Nat → Option (Quint Word)) (full last : Quint Word → Option (List Byte)) :
    Nat → Nat → DecodeRun
  | 0, _ => .output []
  | k + 1, j =>
    match window j with
    | none => .unwritten
    | some t =>
      match (if k = 0 then last t else full t) with
      | none => .badChar j
      | some bs => (decodeWindows window full last k (j + 1)).prepend bs

/-- How a DECODE ends once its loop has (R130, R170, R174). -/
def finishDecode (s : State) : DecodeRun → StepResult
  | .output out => .next (commitBytes s out)
  | .badChar j => .next (raiseBufferErr s .invalidCharacter j)
  | .unwritten => .fault (.unwrittenEntry .charBuf)

/-- DECODE.DEFAULT (R150). -/
def execDecodeDefault (s : State) : StepResult :=
  if s.params.bufCap < s.inLen.toNat then .next (raiseBufferErr s .capacityExceeded 0)
  else if s.inLen.toNat % 5 ≠ 0 then .next (raiseBufferErr s .invalidLength 0)
  else finishDecode s
    (decodeWindows (windowAt s.charBuf) (decWindow s.params) (decTail s.params) (s.inLen.toNat / 5) 0)

/-- DECODE.STRICT (R151). -/
def execDecodeStrict (s : State) : StepResult :=
  if s.params.bufCap < s.inLen.toNat then .next (raiseBufferErr s .capacityExceeded 0)
  else if s.inLen.toNat % 5 ≠ 0 then .next (raiseBufferErr s .invalidLength 0)
  else finishDecode s
    (decodeWindows (windowAt s.charBuf) (decWindow s.params) (decWindow s.params) (s.inLen.toNat / 5) 0)

/-- The pad characters behind a string of length `len`: `5 - r` of them for `r = len mod 5`, none for `r = 0`
(R152). -/
def padding (p : Params) (len : Nat) : List Word :=
  if len % 5 ≠ 0 then List.replicate (5 - len % 5) (charEntry (padChar p)) else []

/-- DECODE.PADDED (R152). The whole input is read before the first window is examined. -/
def execDecodePadded (s : State) : StepResult :=
  if s.params.bufCap < s.inLen.toNat then .next (raiseBufferErr s .capacityExceeded 0)
  else if s.params.bufCap < 4 * ceil5 s.inLen.toNat then .next (raiseBufferErr s .capacityExceeded 0)
  else
    match s.charBuf.readRange 0 s.inLen.toNat with
    | none => .fault (.unwrittenEntry .charBuf)
    | some cs => finishDecode s
      (decodeWindows (windowOf (cs ++ padding s.params s.inLen.toNat)) (decWindow s.params) (decWindow s.params)
        (ceil5 s.inLen.toNat) 0)

end Sys2Proof.Machine
end

