-- ==== Sys2Proof/Machine/Dispatch.lean ====
section
/-! DEFINITION. One command, by its constructor. -/

namespace Sys2Proof.Machine

/-- What a command does, one arm per row of the opcode map (R75). -/
def exec (i : Instr) (s : State) : Host.Outcome State Fault Refusal :=
  match i with
  | .enc4 => Sys2Proof.Machine.execEnc4 s
  | .dec5 => Sys2Proof.Machine.execDec5 s
  | .encodeDefault => Sys2Proof.Machine.execEncodeDefault s
  | .encodeStrict => Sys2Proof.Machine.execEncodeStrict s
  | .encodePadded => Sys2Proof.Machine.execEncodePadded s
  | .decodeDefault => Sys2Proof.Machine.execDecodeDefault s
  | .decodeStrict => Sys2Proof.Machine.execDecodeStrict s
  | .decodePadded => Sys2Proof.Machine.execDecodePadded s
  | .rdalpha aidx => Sys2Proof.Machine.execRdalpha aidx s

end Sys2Proof.Machine
end

