-- ==== Sys2Proof/Machine/HostPort.lean ====
section
/-! DEFINITION. The host port: what each host action does to the block (R50-R53, R57, R70, R190). -/

namespace Sys2Proof.Machine

/-- A write of `w` to `CMD` (R70): the word is decoded by R77 and the command it names is executed. An illegal word
fails with ILLEGAL_COMMAND and changes nothing else (R76, R174). -/
def issueCommand (w : Word) (s : State) : StepResult :=
  match decode w with
  | .command i => exec i s
  | .illegal _ => .next (raiseErr s .illegalCommand 0)

/-- A host write to `REG` (R51, R53). A reserved offset ignores it. -/
def hostRegWrite (offset : Nat) (v : Word) (s : State) : StepResult :=
  if offset % 4 ≠ 0 then .refused .misalignedOffset
  else
    match regAt offset with
    | none => .next s
    | some .cmd => issueCommand v s
    | some r => .next (writeReg s v r)

/-- The value a host read of `REG` returns; a reserved offset reads 0 (R53). -/
def regValue (offset : Nat) (s : State) : Word :=
  match regAt offset with
  | none => 0
  | some r => readReg s r

/-- The reply to a host read. The read changes nothing in the block (R57). -/
def reply (s : State) (r : Reply) : State := { s with replies := s.replies ++ [r] }

/-- A host read of `REG` (R51, R53). -/
def hostRegRead (offset : Nat) (s : State) : StepResult :=
  if offset % 4 ≠ 0 then .refused .misalignedOffset else .next (reply s (.word (regValue offset s)))

/-- A host write to a buffer entry, truncated to the entry's width (R52, I20). -/
def hostBufWrite (b : Buffer) (i : Nat) (v : Word) (s : State) : StepResult :=
  if s.params.bufCap ≤ i then .refused (.indexOutOfRange b)
  else
    match b with
    | .byteBuf => .next { s with byteBuf := s.byteBuf.write i (v.setWidth 8) }
    | .charBuf => .next { s with charBuf := s.charBuf.write i v }

/-- The entry a host read of a buffer returns, or none where it was never written. -/
def entryReply (s : State) (b : Buffer) (i : Nat) : Option Reply :=
  match b with
  | .byteBuf => (s.byteBuf.read i).map Reply.byte
  | .charBuf => (s.charBuf.read i).map Reply.word

/-- A host read of a buffer entry (R52); of one never written, a fault (I3, R198). -/
def hostBufRead (b : Buffer) (i : Nat) (s : State) : StepResult :=
  if s.params.bufCap ≤ i then .refused (.indexOutOfRange b)
  else
    match entryReply s b i with
    | none => .fault (.unwrittenEntry b)
    | some r => .next (reply s r)

/-- Reset (R190, R194): the block's registers and buffers as after reset. The parameters, the host's actions still
to come and the replies it has are not the block's to reset (log entry 7). -/
def hostReset (s : State) : StepResult :=
  .next { State.resetWith s.params with pending := s.pending, replies := s.replies }

/-- One host action (R64). -/
def perform (a : HostAction) (s : State) : StepResult :=
  match a with
  | .regWrite offset v => hostRegWrite offset v s
  | .regRead offset => hostRegRead offset s
  | .bufWrite b i v => hostBufWrite b i v s
  | .bufRead b i => hostBufRead b i s
  | .reset => hostReset s

/-- The step of a machine whose host is silent: nothing advances (R5, R31; log entry 6). -/
def idle (s : State) : StepResult := .next s

/-- `s` with the host action taken out of those to come. -/
def takeAction (s : State) (rest : List HostAction) : State := { s with pending := rest }

/-- `s` with a write of the word `w` to `CMD` as the host's next action (R70). -/
def withCommand (s : State) (w : Word) : State := { s with pending := .regWrite 0x00 w :: s.pending }

end Sys2Proof.Machine
end

