-- ==== Sys2Proof/Machine/Step.lean ====
section
/-! DEFINITION. One step of the machine: the host's next action (R5, R59, R198). -/

namespace Sys2Proof.Machine

/-- One step (R198: the host program's statements run in order, "and each takes one step"). With no action to come
the block stays as it is (R31). -/
def step (s : State) : Host.Outcome State Fault Refusal :=
  match s.pending with
  | [] => idle s
  | a :: rest => perform a (takeAction s rest)

/-- `s` with the command word `w` where the step takes its next command from: the host's next action is a write of it
to `CMD` (R70). The block itself fetches nothing (R61), and a host program comes to run from reset by being the list
of actions to come (log entry 5). -/
def State.withFetchWord (s : State) (nbits w : Nat) : State := withCommand s (BitVec.ofNat 32 (w % 2 ^ nbits))

end Sys2Proof.Machine
end

