-- ==== Sys2Proof/Safety.lean ====
section
/-! DEFINITION. What counts as a good state and a safe run, and the words the claims are stated in. The numeric
vocabulary here is written from the spec's arithmetic (natural numbers, quotient and remainder), not from the
model's own operations, so that a claim compares the two. -/

namespace Sys2Proof.Machine

/-! ## Good states -/

/-- What every step keeps. Each clause is a promise of the spec about the whole machine. -/
structure State.Inv (s : State) : Prop where
  /-- The parameters meet R6, R20 and R22. -/
  params : s.params.Valid
  /-- "`ERR` codes 5, 6 and 7 are never written" (R25, I15). -/
  errCode : s.err.toNat ≤ 4
  /-- "Every other outcome, success included, writes `ERR_WIN <- 0`" (R26). -/
  window : s.err ≠ 2 → s.errWin = 0
  /-- `CHR_OUT0..4`: "bit 7 is always 0" (R28). -/
  chrOut : ∀ c ∈ s.chrOut.toList, c.toNat < 128
  /-- `OUT_LEN` entries fit the buffer (R29, R65). -/
  outLen : s.outLen.toNat ≤ s.params.bufCap
  /-- The buffers are in canonical form. -/
  byteBufWf : Memory.wf s.byteBuf = true
  charBufWf : Memory.wf s.charBuf = true
  /-- The buffers have `BUF_CAP` entries (R30). -/
  byteBufWithin : Memory.within s.params.bufCap s.byteBuf = true
  charBufWithin : Memory.within s.params.bufCap s.charBuf = true

/-! ## Safe actions -/

/-- The state an outcome carries, where it is a next state. -/
def nextState? (o : StepResult) : Option State :=
  match o with
  | .next s => some s
  | .fault _ => none
  | .refused _ => none

/-- Every entry of `BYTE_BUF[0..IN_LEN)` has been written (R193). -/
def BytesWritten (s : State) : Prop := ∀ i, i < s.inLen.toNat → s.byteBuf.read i ≠ none

/-- Every entry of `CHAR_BUF[0..IN_LEN)` has been written (R193). -/
def CharsWritten (s : State) : Prop := ∀ i, i < s.inLen.toNat → s.charBuf.read i ≠ none

/-- The operand entries a command needs written before it is issued (R64, R193). -/
def OperandsWritten (s : State) : Instr → Prop
  | .enc4 => True
  | .dec5 => True
  | .encodeDefault => BytesWritten s
  | .encodeStrict => BytesWritten s
  | .encodePadded => BytesWritten s
  | .decodeDefault => CharsWritten s
  | .decodeStrict => CharsWritten s
  | .decodePadded => CharsWritten s
  | .rdalpha _ => True

/-- The entry a buffer access names has been written. -/
def EntryWritten (s : State) : Buffer → Nat → Prop
  | .byteBuf, i => s.byteBuf.read i ≠ none
  | .charBuf, i => s.charBuf.read i ≠ none

/-- What R64 asks of the host for one action ("host may", "host must"). -/
def WellBehaved (s : State) : HostAction → Prop
  | .regWrite offset v =>
    offset % 4 = 0 ∧ (offset = 0 → ∀ i, decode v = .command i → OperandsWritten s i)
  | .regRead offset => offset % 4 = 0
  | .bufWrite _ i _ => i < s.params.bufCap
  | .bufRead b i => i < s.params.bufCap ∧ EntryWritten s b i
  | .reset => True

/-- The six buffer commands: those that write `OUT_LEN` (R24). -/
def isBufferCommand : Instr → Bool
  | .enc4 => false
  | .dec5 => false
  | .encodeDefault => true
  | .encodeStrict => true
  | .encodePadded => true
  | .decodeDefault => true
  | .decodeStrict => true
  | .decodePadded => true
  | .rdalpha _ => false

/-- The encode commands: they read `BYTE_BUF` and write `CHAR_BUF` (R54). -/
def isEncode (i : Instr) : Prop := i = .encodeDefault ∨ i = .encodeStrict ∨ i = .encodePadded

/-- The decode commands: they read `CHAR_BUF` and write `BYTE_BUF` (R54). -/
def isDecode (i : Instr) : Prop := i = .decodeDefault ∨ i = .decodeStrict ∨ i = .decodePadded

/-- The two states agree on what a command reads (R33, R74): the parameters, which fix the ROMs, its operand
registers and the buffer entries `[0..IN_LEN)` it reads. -/
def SameOperands (i : Instr) (s s' : State) : Prop :=
  s.params = s'.params ∧
    match i with
    | .enc4 => s.dataIn = s'.dataIn
    | .dec5 => s.chrIn = s'.chrIn
    | .encodeDefault => s.inLen = s'.inLen ∧ ∀ k, k < s.inLen.toNat → s.byteBuf.read k = s'.byteBuf.read k
    | .encodeStrict => s.inLen = s'.inLen ∧ ∀ k, k < s.inLen.toNat → s.byteBuf.read k = s'.byteBuf.read k
    | .encodePadded => s.inLen = s'.inLen ∧ ∀ k, k < s.inLen.toNat → s.byteBuf.read k = s'.byteBuf.read k
    | .decodeDefault => s.inLen = s'.inLen ∧ ∀ k, k < s.inLen.toNat → s.charBuf.read k = s'.charBuf.read k
    | .decodeStrict => s.inLen = s'.inLen ∧ ∀ k, k < s.inLen.toNat → s.charBuf.read k = s'.charBuf.read k
    | .decodePadded => s.inLen = s'.inLen ∧ ∀ k, k < s.inLen.toNat → s.charBuf.read k = s'.charBuf.read k
    | .rdalpha _ => True

/-- The two states agree on what a command that has just completed gave (R24, R54): its status, and on success its
result registers and output entries. -/
def SameResults (i : Instr) (t t' : State) : Prop :=
  t.err = t'.err ∧ t.errWin = t'.errWin ∧
    match i with
    | .enc4 => t.chrOut = t'.chrOut
    | .dec5 => t.err = 0 → t.dataOut = t'.dataOut
    | .encodeDefault => t.outLen = t'.outLen ∧ ∀ k, k < t.outLen.toNat → t.charBuf.read k = t'.charBuf.read k
    | .encodeStrict => t.outLen = t'.outLen ∧ ∀ k, k < t.outLen.toNat → t.charBuf.read k = t'.charBuf.read k
    | .encodePadded => t.outLen = t'.outLen ∧ ∀ k, k < t.outLen.toNat → t.charBuf.read k = t'.charBuf.read k
    | .decodeDefault => t.outLen = t'.outLen ∧ ∀ k, k < t.outLen.toNat → t.byteBuf.read k = t'.byteBuf.read k
    | .decodeStrict => t.outLen = t'.outLen ∧ ∀ k, k < t.outLen.toNat → t.byteBuf.read k = t'.byteBuf.read k
    | .decodePadded => t.outLen = t'.outLen ∧ ∀ k, k < t.outLen.toNat → t.byteBuf.read k = t'.byteBuf.read k
    | .rdalpha _ => t.err = 0 → t.chrOut.c0 = t'.chrOut.c0

/-! ## Arithmetic vocabulary of the claims -/

/-- Digit `q` of a packed value, `d0` the most significant: the base-85 representation (R100). -/
def digitOf (value q : Nat) : Nat := value / 85 ^ (4 - q) % 85

/-- The character entry of a digit value: `ALPHABET[d]`, zero-extended to a lane (R20, R28); none above 84. -/
def charOfDigit (p : Params) (d : Nat) : Option Word := (p.alphabet.toList[d]?).map (fun c => c.setWidth 32)

/-- `MARK_CHAR` as a lane holds it. -/
def markEntry (p : Params) : Word := p.markChar.setWidth 32

/-- A lane value that is some alphabet character: what the decoder accepts (R104). -/
def ValidChar (p : Params) (k : Word) : Prop := ∃ d, d < 85 ∧ charOfDigit p d = some k

/-- The value of five digits (R103 step 3). -/
def digitsValue (d0 d1 d2 d3 d4 : Nat) : Nat := d0 * 85 ^ 4 + d1 * 85 ^ 3 + d2 * 85 ^ 2 + d3 * 85 + d4

/-- The value of window `j` of a string with digit values `v` (R55). -/
def windowValue (v : Nat → Nat) (j : Nat) : Nat :=
  digitsValue (v (5 * j)) (v (5 * j + 1)) (v (5 * j + 2)) (v (5 * j + 3)) (v (5 * j + 4))

/-- Byte `q` of a value, byte 0 the most significant of 32 bits (R55). -/
def byteOfValue (value q : Nat) : Byte := BitVec.ofNat 8 (value / 256 ^ (3 - q))

/-- Byte `i` of the output that digit values `v` decode to: byte `i mod 4` of window `i div 4` (R55, R56). -/
def decodedByte (v : Nat → Nat) (i : Nat) : Byte := byteOfValue (windowValue v (i / 4)) (i % 4)

/-- Byte `i` of an encode's input as a number, 0 beyond `IN_LEN` (R131, R142: zero padding). -/
def inputByte (s : State) (i : Nat) : Nat :=
  if i < s.inLen.toNat then ((s.byteBuf.read i).getD 0).toNat else 0

/-- The packed value of block `j` of an encode's input, zero-padded (R55, R56). -/
def inputBlock (s : State) (j : Nat) : Nat :=
  inputByte s (4 * j) * 2 ^ 24 + inputByte s (4 * j + 1) * 2 ^ 16 + inputByte s (4 * j + 2) * 2 ^ 8
    + inputByte s (4 * j + 3)

/-- Entry `i` of the characters of the zero-padded input: character `i mod 5` of block `i div 5` (R100, R56). -/
def encodedEntry (s : State) (i : Nat) : Option Word :=
  charOfDigit s.params (digitOf (inputBlock s (i / 5)) (i % 5))

/-- The `CHAR_BUF` entry at `i` is written and is no alphabet character. -/
def BadEntry (s : State) (i : Nat) : Prop := ∃ k, s.charBuf.read i = some k ∧ ¬ ValidChar s.params k

/-- The `CHAR_BUF` entry at `i` is written and is an alphabet character. -/
def GoodEntry (s : State) (i : Nat) : Prop := ∃ k, s.charBuf.read i = some k ∧ ValidChar s.params k

/-- The last `m` of the five entries of window `j` hold the mark, and the one before them does not: the window has
`m` trailing marks (R133). -/
def TrailingMarks (s : State) (j m : Nat) : Prop :=
  m ≤ 5 ∧ (∀ q, 5 - m ≤ q → q < 5 → s.charBuf.read (5 * j + q) = some (markEntry s.params)) ∧
    (m < 5 → s.charBuf.read (5 * j + (4 - m)) ≠ some (markEntry s.params))

end Sys2Proof.Machine
end

