-- ==== Sys2Proof/Certificates/Slice0/Obligations.lean ====
section
/-! DEFINITION. The statements about the model, for the provers. They quantify over every state, and so over every
choice of the parameters; where one needs the parameters to be legal (R6, R20, R22) it says so by `params.Valid`. -/

open Sys2Proof Sys2Proof.Machine

/-! ## The command word -/

/-- R75, R77: the decoder reads back the encoding of every well-formed instruction, with every operand value. -/
def Obligations.EncodeThenDecode : Prop :=
  ∀ i : Instr, i.wellFormed = true → decode (encode i) = .command i

/-- R75 ("no two rows share a word"), R77: a word decodes to a command only as that command's own encoding, and what
it decodes to is well-formed. -/
def Obligations.DecodedWordIsItsEncoding : Prop :=
  ∀ (w : Word) (i : Instr), decode w = .command i → i.wellFormed = true ∧ encode i = w

/-- R75: the nine rows, each word read as a number. Eight rows of one word and one of 85 words give every legal
command, no word is in two rows, and the legal words are 93. -/
def Obligations.OpcodeMapRows : Prop :=
  (∀ w : Word,
    (decode w = .command .enc4 ↔ w.toNat = 0x00000001) ∧
    (decode w = .command .dec5 ↔ w.toNat = 0x00000002) ∧
    (decode w = .command .encodeDefault ↔ w.toNat = 0x00000003) ∧
    (decode w = .command .encodeStrict ↔ w.toNat = 0x00000013) ∧
    (decode w = .command .encodePadded ↔ w.toNat = 0x00000023) ∧
    (decode w = .command .decodeDefault ↔ w.toNat = 0x00000004) ∧
    (decode w = .command .decodeStrict ↔ w.toNat = 0x00000014) ∧
    (decode w = .command .decodePadded ↔ w.toNat = 0x00000024) ∧
    ∀ a : Code, decode w = .command (.rdalpha a) ↔ a.toNat < 85 ∧ w.toNat = 0x00000005 + 2 ^ 8 * a.toNat) ∧
  ∃ legal : List Word, legal.length = 93 ∧ legal.Nodup ∧ ∀ w, w ∈ legal ↔ ∃ i, decode w = .command i

/-- R76's list, as numbers: `OP`, `VAR`, `RES0`, `AIDX`, `RES1` are the word's bits 3:0, 5:4, 7:6, 14:8 and 31:15. -/
def Obligations.IllegalWordConditions : Prop :=
  ∀ (w : Word) (op var res0 aidx res1 : Nat),
    op = w.toNat % 2 ^ 4 → var = w.toNat / 2 ^ 4 % 2 ^ 2 → res0 = w.toNat / 2 ^ 6 % 2 ^ 2 →
    aidx = w.toNat / 2 ^ 8 % 2 ^ 7 → res1 = w.toNat / 2 ^ 15 →
    ((∃ why, decode w = .illegal why) ↔
      op = 0 ∨ 6 ≤ op ∨ var = 3 ∨ ((op = 1 ∨ op = 2 ∨ op = 5) ∧ var ≠ 0) ∨ res0 ≠ 0 ∨ res1 ≠ 0 ∨
        (op ≠ 5 ∧ aidx ≠ 0) ∨ (op = 5 ∧ 85 ≤ aidx))

/-- R76: a word outside R75's rows, written to `CMD`, fails with ILLEGAL_COMMAND, `ERR_WIN <- 0`, and changes no other
register and no buffer entry. -/
def Obligations.IllegalCommandEffect : Prop :=
  ∀ (s : State) (w : Word) (rest : List HostAction), s.pending = .regWrite 0x00 w :: rest →
    w.toNat ∉ [0x01, 0x02, 0x03, 0x13, 0x23, 0x04, 0x14, 0x24] → (∀ a, a < 85 → w.toNat ≠ 0x05 + 2 ^ 8 * a) →
    step s = .next { s with pending := rest, err := 3, errWin := 0 }

/-- Sample words written out from R71 and R75 decode to their commands; words of R76 to none. -/
def Obligations.SampleWordsDecode : Prop :=
  decode 0b00000000000000000000000000000001 = .command .enc4 ∧
  decode 0b00000000000000000000000000000010 = .command .dec5 ∧
  decode 0b00000000000000000000000000100011 = .command .encodePadded ∧
  decode 0b00000000000000000000000000010100 = .command .decodeStrict ∧
  decode 0b00000000000000000101010000000101 = .command (.rdalpha 84) ∧
  (decode 0b00000000000000000101010100000101).command? = none ∧
  (decode 0b10000000000000000000000000000100).command? = none

/-! ## The host port and the step -/

/-- R70: a step whose host action is a write to `CMD` of a word that decodes to `i` is `exec i` of the state with the
action taken. -/
def Obligations.StepRunsTheDecodedCommand : Prop :=
  ∀ (s : State) (w : Word) (i : Instr) (rest : List HostAction), s.pending = .regWrite 0x00 w :: rest →
    decode w = .command i → step s = exec i { s with pending := rest }

/-- The model's choice (log entry 6), from R5 and R31: with no host action to come, a step changes nothing. -/
def Obligations.SilentHostChangesNothing : Prop :=
  ∀ s : State, s.pending = [] → step s = .next s

/-- R24's access column and R53: at an offset that is a multiple of 4, a host read replies the register's value,
zero-extended, or 0 (`CMD`, reserved offsets), and changes nothing else; a host write goes to an `RW` register, and
at an `RO` or reserved offset changes nothing. -/
def Obligations.RegisterPort : Prop :=
  (∀ (s : State) (offset : Nat) (rest : List HostAction), s.pending = .regRead offset :: rest → offset % 4 = 0 →
    step s = .next { s with
      pending := rest
      replies := s.replies ++ [.word (
        if offset = 0x04 then s.err.setWidth 32
        else if offset = 0x08 then s.errWin
        else if offset = 0x0C then s.dataIn
        else if offset = 0x10 then s.dataOut
        else if offset = 0x14 then s.chrIn.c0
        else if offset = 0x18 then s.chrIn.c1
        else if offset = 0x1C then s.chrIn.c2
        else if offset = 0x20 then s.chrIn.c3
        else if offset = 0x24 then s.chrIn.c4
        else if offset = 0x28 then s.chrOut.c0.setWidth 32
        else if offset = 0x2C then s.chrOut.c1.setWidth 32
        else if offset = 0x30 then s.chrOut.c2.setWidth 32
        else if offset = 0x34 then s.chrOut.c3.setWidth 32
        else if offset = 0x38 then s.chrOut.c4.setWidth 32
        else if offset = 0x3C then s.inLen
        else if offset = 0x40 then s.outLen
        else 0)] }) ∧
  (∀ (s : State) (offset : Nat) (v : Word) (rest : List HostAction), s.pending = .regWrite offset v :: rest →
    offset % 4 = 0 → offset ≠ 0x00 →
    step s = .next (
      if offset = 0x0C then { s with pending := rest, dataIn := v }
      else if offset = 0x14 then { s with pending := rest, chrIn := { s.chrIn with c0 := v } }
      else if offset = 0x18 then { s with pending := rest, chrIn := { s.chrIn with c1 := v } }
      else if offset = 0x1C then { s with pending := rest, chrIn := { s.chrIn with c2 := v } }
      else if offset = 0x20 then { s with pending := rest, chrIn := { s.chrIn with c3 := v } }
      else if offset = 0x24 then { s with pending := rest, chrIn := { s.chrIn with c4 := v } }
      else if offset = 0x3C then { s with pending := rest, inLen := v }
      else { s with pending := rest }))

/-- R51: an access to `REG` at an offset that is not a multiple of 4 is refused, for a read and for a write. -/
def Obligations.MisalignedOffsetRefused : Prop :=
  ∀ (s : State) (offset : Nat) (v : Word) (rest : List HostAction), offset % 4 ≠ 0 →
    s.pending = .regRead offset :: rest ∨ s.pending = .regWrite offset v :: rest →
    step s = .refused .misalignedOffset

/-- R52: a buffer write stores the value truncated to the entry's width and leaves every other entry and all else
alone; a buffer read returns the stored entry and changes nothing else; an index `>= BUF_CAP` is refused. -/
def Obligations.BufferPort : Prop :=
  (∀ (s : State) (i : Nat) (v : Word) (rest : List HostAction), i < s.params.bufCap →
    s.pending = .bufWrite .byteBuf i v :: rest →
    ∃ t, step s = .next t ∧ t = { s with pending := rest, byteBuf := t.byteBuf } ∧
      t.byteBuf.read i = some (BitVec.ofNat 8 v.toNat) ∧ ∀ k, k ≠ i → t.byteBuf.read k = s.byteBuf.read k) ∧
  (∀ (s : State) (i : Nat) (v : Word) (rest : List HostAction), i < s.params.bufCap →
    s.pending = .bufWrite .charBuf i v :: rest →
    ∃ t, step s = .next t ∧ t = { s with pending := rest, charBuf := t.charBuf } ∧
      t.charBuf.read i = some v ∧ ∀ k, k ≠ i → t.charBuf.read k = s.charBuf.read k) ∧
  (∀ (s : State) (i : Nat) (x : Byte) (rest : List HostAction), i < s.params.bufCap →
    s.pending = .bufRead .byteBuf i :: rest → s.byteBuf.read i = some x →
    step s = .next { s with pending := rest, replies := s.replies ++ [.byte x] }) ∧
  (∀ (s : State) (i : Nat) (x : Word) (rest : List HostAction), i < s.params.bufCap →
    s.pending = .bufRead .charBuf i :: rest → s.charBuf.read i = some x →
    step s = .next { s with pending := rest, replies := s.replies ++ [.word x] }) ∧
  (∀ (s : State) (b : Buffer) (i : Nat) (v : Word) (rest : List HostAction), s.params.bufCap ≤ i →
    s.pending = .bufRead b i :: rest ∨ s.pending = .bufWrite b i v :: rest →
    step s = .refused (.indexOutOfRange b))

/-- R198, I3 (the spec's own choice D24): a host read of a buffer entry never written since reset faults. -/
def Obligations.UnwrittenHostReadFaults : Prop :=
  ∀ (s : State) (i : Nat) (rest : List HostAction), i < s.params.bufCap →
    (s.pending = .bufRead .byteBuf i :: rest → s.byteBuf.read i = none →
      step s = .fault (.unwrittenEntry .byteBuf)) ∧
    (s.pending = .bufRead .charBuf i :: rest → s.charBuf.read i = none →
      step s = .fault (.unwrittenEntry .charBuf))

/-- R190 gives the values: the state after reset, at power-on and by the reset input, has every register 0, reading 0 at
first, and no buffer entry written. That the reset input keeps the parameters, the host actions still to come and the
replies already given is the model's choice (log entry 7, DESIGN CHOICE), not R190's. -/
def Obligations.ResetValues : Prop :=
  (∀ (s : State) (rest : List HostAction), s.pending = .reset :: rest →
    step s = .next
      { params := s.params, err := 0, errWin := 0, dataIn := 0, dataOut := 0, chrIn := ⟨0, 0, 0, 0, 0⟩,
        chrOut := ⟨0, 0, 0, 0, 0⟩, inLen := 0, outLen := 0, byteBuf := [], charBuf := [], pending := rest,
        replies := s.replies }) ∧
  State.reset =
    { params := State.reset.params, err := 0, errWin := 0, dataIn := 0, dataOut := 0, chrIn := ⟨0, 0, 0, 0, 0⟩,
      chrOut := ⟨0, 0, 0, 0, 0⟩, inLen := 0, outLen := 0, byteBuf := [], charBuf := [],
      pending := State.reset.pending, replies := State.reset.replies } ∧
  (∀ offset, offset % 4 = 0 →
    step { State.reset with pending := [.regRead offset] } = .next { State.reset with replies := [.word 0] }) ∧
  (∀ i, State.reset.byteBuf.read i = none) ∧ (∀ i, State.reset.charBuf.read i = none)

/-! ## The ROMs and the cores -/

/-- R21: the reverse-index ROM is what the fill pass builds, it inverts the alphabet, it holds `INVALID` = 0xFF outside
it, exactly 85 of its 128 entries are valid, and no command writes it. -/
def Obligations.IndexRomContents : Prop :=
  (∀ p : Params, p.Valid →
    (∀ c : Code, (buildIndex p)[c.toNat]? = some (index p c)) ∧
    (∀ (v : Nat) (c : Code), p.alphabet.toList[v]? = some c → index p c = BitVec.ofNat 8 v) ∧
    (∀ c : Code, c ∉ p.alphabet.toList → index p c = 0xFF) ∧
    ((List.range 128).filter (fun c => index p (BitVec.ofNat 7 c) ≠ 0xFF)).length = 85 ∧
    ((List.range 128).filter (fun c => index p (BitVec.ofNat 7 c) = 0xFF)).length = 43) ∧
  ∀ (i : Instr) (s t : State) (c : Code), exec i s = .next t → index t.params c = index s.params c

/-- R22: the mark maps to `INVALID`; R104: so the decoder core rejects it in every position. The last clause, that the
parameters at reset are legal, is about the model's choices and not a rule of the spec: the ZeroMQ alphabet (log entry 2,
PRESUMED), the opaque legal mark (log entry 3, DESIGN CHOICE) and capacity (log entry 4, DESIGN CHOICE). -/
def Obligations.MarkIsNoCharacter : Prop :=
  (∀ p : Params, p.Valid → index p p.markChar = 0xFF ∧
    ∀ k : Quint Word, markEntry p ∈ k.toList → decBlock p k = none) ∧
  State.reset.params.Valid

/-- R102: the digits are the base-85 representation of the value, the top one at most 82; every character emitted is in
the alphabet; and exactly the canonical digit tuples are emitted. -/
def Obligations.EncoderRange : Prop :=
  (∀ (w : Word) (d : Quint (Fin 85)), encDigits w = d →
    digitsValue d.c0 d.c1 d.c2 d.c3 d.c4 = w.toNat ∧ d.c0.val ≤ 82) ∧
  (∀ (p : Params) (w : Word) (c : Code), c ∈ (encChars p w).toList → c ∈ p.alphabet.toList) ∧
  (∀ d : Quint (Fin 85), (∃ w, encDigits w = d) ↔ digitsValue d.c0 d.c1 d.c2 d.c3 d.c4 < 2 ^ 32)

/-- R101: ENC4 completes on every state; `CHR_OUT0..4` become the alphabet characters of the base-85 digits of `DATA_IN`,
most significant first, `ERR <- NONE`, `ERR_WIN <- 0`, and it writes nothing else. -/
def Obligations.Enc4Result : Prop :=
  ∀ s : State, ∃ t, exec .enc4 s = .next t ∧ t = { s with chrOut := t.chrOut, err := 0, errWin := 0 } ∧
    ∀ q, q < 5 → (t.chrOut.toList[q]?).map (fun c => c.setWidth 32)
      = charOfDigit s.params (digitOf s.dataIn.toNat q)

/-- R106: DEC5 completes on every state. Five alphabet characters give `DATA_OUT <- acc mod 2^32`; one that is none
gives INVALID_CHARACTER in window 0 and keeps `DATA_OUT`. It writes nothing else. -/
def Obligations.Dec5Result : Prop :=
  ∀ s : State, s.params.Valid →
    (∀ d0 d1 d2 d3 d4 : Nat, charOfDigit s.params d0 = some s.chrIn.c0 → charOfDigit s.params d1 = some s.chrIn.c1 →
      charOfDigit s.params d2 = some s.chrIn.c2 → charOfDigit s.params d3 = some s.chrIn.c3 →
      charOfDigit s.params d4 = some s.chrIn.c4 →
      exec .dec5 s = .next { s with
        dataOut := BitVec.ofNat 32 (digitsValue d0 d1 d2 d3 d4), err := 0, errWin := 0 }) ∧
    ((∃ k ∈ s.chrIn.toList, ¬ ValidChar s.params k) →
      exec .dec5 s = .next { s with err := 2, errWin := 0 })

/-- R104, R23: the decoder core rejects a block exactly when one of its codes is `>= 128`, or is below 128 and maps to
`INVALID`. -/
def Obligations.DecoderRejection : Prop :=
  ∀ (p : Params) (k : Quint Word), p.Valid →
    (decBlock p k = none ↔
      ∃ c ∈ k.toList, 128 ≤ c.toNat ∨ index p (BitVec.ofNat 7 c.toNat) = 0xFF)

/-- R105: five valid characters with `acc >= 2^32` are accepted with the result `acc mod 2^32 = acc - 2^32`, no error is
raised, and the result does not encode to the same characters. Each such `acc`, of the 142,085,829 below 85^5, is that
of exactly one digit tuple. -/
def Obligations.OverflowIsTruncated : Prop :=
  (∀ (s : State) (d0 d1 d2 d3 d4 : Nat), s.params.Valid →
    charOfDigit s.params d0 = some s.chrIn.c0 → charOfDigit s.params d1 = some s.chrIn.c1 →
    charOfDigit s.params d2 = some s.chrIn.c2 → charOfDigit s.params d3 = some s.chrIn.c3 →
    charOfDigit s.params d4 = some s.chrIn.c4 → 2 ^ 32 ≤ digitsValue d0 d1 d2 d3 d4 →
    exec .dec5 s = .next { s with
      dataOut := BitVec.ofNat 32 (digitsValue d0 d1 d2 d3 d4 - 2 ^ 32), err := 0, errWin := 0 } ∧
    (encChars s.params (BitVec.ofNat 32 (digitsValue d0 d1 d2 d3 d4))).map (fun c => c.setWidth 32) ≠ s.chrIn) ∧
  (∀ n, n < 85 ^ 5 → ∃ d : Quint (Fin 85), ∀ e : Quint (Fin 85),
    digitsValue e.c0 e.c1 e.c2 e.c3 e.c4 = n ↔ e = d) ∧
  digitsValue 84 84 84 84 84 + 1 = 85 ^ 5 ∧ 85 ^ 5 - 2 ^ 32 = 142085829

/-- R107: RDALPHA completes for every index below 85: `CHR_OUT0 <- ALPHA(a)`, `ERR <- NONE`, `ERR_WIN <- 0`, and
`CHR_OUT1..4` and all other state keep their values. -/
def Obligations.RdalphaResult : Prop :=
  ∀ (s : State) (a : Code) (c : Code), s.params.alphabet.toList[a.toNat]? = some c →
    exec (.rdalpha a) s = .next { s with
      chrOut := { s.chrOut with c0 := c.setWidth 8 }, err := 0, errWin := 0 }

/-- R108: the four laws of the cores. `k` is canonical when its digits' value is below 2^32. -/
def Obligations.CoreLaws : Prop :=
  ∀ p : Params, p.Valid →
    (∀ w : Word, decBlock p ((encChars p w).map (fun c => c.setWidth 32)) = some w) ∧
    (∀ (k : Quint Word) (d0 d1 d2 d3 d4 : Nat), charOfDigit p d0 = some k.c0 → charOfDigit p d1 = some k.c1 →
      charOfDigit p d2 = some k.c2 → charOfDigit p d3 = some k.c3 → charOfDigit p d4 = some k.c4 →
      ∃ v, decBlock p k = some v ∧
        ((encChars p v).map (fun c => c.setWidth 32) = k ↔ digitsValue d0 d1 d2 d3 d4 < 2 ^ 32) ∧
        (2 ^ 32 ≤ digitsValue d0 d1 d2 d3 d4 → v.toNat = digitsValue d0 d1 d2 d3 d4 - 2 ^ 32)) ∧
    (∀ w w' : Word, encChars p w = encChars p w' → w = w') ∧
    (∀ (k k' : Quint Word) (v : Word) (d0 d1 d2 d3 d4 e0 e1 e2 e3 e4 : Nat),
      charOfDigit p d0 = some k.c0 → charOfDigit p d1 = some k.c1 → charOfDigit p d2 = some k.c2 →
      charOfDigit p d3 = some k.c3 → charOfDigit p d4 = some k.c4 →
      charOfDigit p e0 = some k'.c0 → charOfDigit p e1 = some k'.c1 → charOfDigit p e2 = some k'.c2 →
      charOfDigit p e3 = some k'.c3 → charOfDigit p e4 = some k'.c4 →
      digitsValue d0 d1 d2 d3 d4 < 2 ^ 32 → digitsValue e0 e1 e2 e3 e4 < 2 ^ 32 →
      decBlock p k = some v → decBlock p k' = some v → k = k') ∧
    (∀ (w : Word) (k : Quint Word), digitOf w.toNat 0 ≠ digitOf w.toNat 4 ∨ digitOf w.toNat 1 ≠ digitOf w.toNat 3 →
      k.toList = ((encChars p w).map (fun c => c.setWidth 32)).toList.reverse → decBlock p k ≠ some w)

/-- R135, R131, R133: for every tail of 1 to 3 bytes the Default encoder's window has `m = 4 - r` marks; the fill gives
`acc = W - (W mod 85^m) + (85^m - 1)`, `W <= acc < W + 85^m`, `acc <= 0xFFFFFF54`; and the decoder gives the tail back. -/
def Obligations.TailFillIsExact : Prop :=
  ∀ (p : Params) (t : List Byte) (m w : Nat), p.Valid → 1 ≤ t.length → t.length ≤ 3 → m = 4 - t.length →
    w = (t.getD 0 0).toNat * 2 ^ 24 + (t.getD 1 0).toNat * 2 ^ 16 + (t.getD 2 0).toNat * 2 ^ 8 →
    ∃ (q : Quint Word) (v : Quint Nat), q.toList = encTail p t ∧ markCount p q = m ∧
      tailDigits p m q = some v ∧ accumulate v = w - w % 85 ^ m + (85 ^ m - 1) ∧
      w ≤ accumulate v ∧ accumulate v < w + 85 ^ m ∧ accumulate v ≤ 0xFFFFFF54 ∧ decTail p q = some t

/-! ## Whole-buffer encode -/

/-- R140: ENCODE.DEFAULT. CAPACITY_EXCEEDED for an input or an output beyond `BUF_CAP`; else, its input written, it
completes with the characters of the zero-padded input, the last `4 - r` of a marked window replaced by the mark. -/
def Obligations.EncodeDefaultResult : Prop :=
  ∀ (s : State) (n : Nat), s.inLen.toNat = n →
    (s.params.bufCap < n ∨ s.params.bufCap < 5 * ((n + 3) / 4) →
      exec .encodeDefault s = .next { s with err := 4, errWin := 0, outLen := 0 }) ∧
    (n ≤ s.params.bufCap → 5 * ((n + 3) / 4) ≤ s.params.bufCap → BytesWritten s →
      ∃ t, exec .encodeDefault s = .next t ∧
        t = { s with
          charBuf := t.charBuf, outLen := BitVec.ofNat 32 (5 * ((n + 3) / 4)), err := 0, errWin := 0 } ∧
        (∀ i, i < 5 * ((n + 3) / 4) → t.charBuf.read i =
          if 4 * (i / 5) + i % 5 ≤ n then encodedEntry s i else some (markEntry s.params)) ∧
        ∀ i, 5 * ((n + 3) / 4) ≤ i → t.charBuf.read i = s.charBuf.read i)

/-- R141: ENCODE.STRICT. The input's capacity is checked first, then the length, then the output's capacity; else, its
input written, it completes with the characters of its blocks. -/
def Obligations.EncodeStrictResult : Prop :=
  ∀ (s : State) (n : Nat), s.inLen.toNat = n →
    (s.params.bufCap < n → exec .encodeStrict s = .next { s with err := 4, errWin := 0, outLen := 0 }) ∧
    (n ≤ s.params.bufCap → n % 4 ≠ 0 →
      exec .encodeStrict s = .next { s with err := 1, errWin := 0, outLen := 0 }) ∧
    (n ≤ s.params.bufCap → n % 4 = 0 → s.params.bufCap < 5 * (n / 4) →
      exec .encodeStrict s = .next { s with err := 4, errWin := 0, outLen := 0 }) ∧
    (n ≤ s.params.bufCap → n % 4 = 0 → 5 * (n / 4) ≤ s.params.bufCap → BytesWritten s →
      ∃ t, exec .encodeStrict s = .next t ∧
        t = { s with charBuf := t.charBuf, outLen := BitVec.ofNat 32 (5 * (n / 4)), err := 0, errWin := 0 } ∧
        (∀ i, i < 5 * (n / 4) → t.charBuf.read i = encodedEntry s i) ∧
        ∀ i, 5 * (n / 4) ≤ i → t.charBuf.read i = s.charBuf.read i)

/-- R142: ENCODE.PADDED. As ENCODE.DEFAULT, with the zero-padded tail block encoded whole and no mark. -/
def Obligations.EncodePaddedResult : Prop :=
  ∀ (s : State) (n : Nat), s.inLen.toNat = n →
    (s.params.bufCap < n ∨ s.params.bufCap < 5 * ((n + 3) / 4) →
      exec .encodePadded s = .next { s with err := 4, errWin := 0, outLen := 0 }) ∧
    (n ≤ s.params.bufCap → 5 * ((n + 3) / 4) ≤ s.params.bufCap → BytesWritten s →
      ∃ t, exec .encodePadded s = .next t ∧
        t = { s with
          charBuf := t.charBuf, outLen := BitVec.ofNat 32 (5 * ((n + 3) / 4)), err := 0, errWin := 0 } ∧
        (∀ i, i < 5 * ((n + 3) / 4) → t.charBuf.read i = encodedEntry s i) ∧
        ∀ i, 5 * ((n + 3) / 4) ≤ i → t.charBuf.read i = s.charBuf.read i)

/-! ## Whole-buffer decode -/

/-- R150: DECODE.DEFAULT on `L = 5k` characters. The checks in their order; success, with `m <= 3` trailing marks in the
last window, each filled with digit 84, and `4k - m` bytes out; and INVALID_CHARACTER at the lowest window that fails:
a bad character in it, other than a mark position of the last window, or a last window with 4 or 5 marks. -/
def Obligations.DecodeDefaultResult : Prop :=
  ∀ (s : State) (len k : Nat), s.params.Valid → s.inLen.toNat = len →
    (s.params.bufCap < len → exec .decodeDefault s = .next { s with err := 4, errWin := 0, outLen := 0 }) ∧
    (len ≤ s.params.bufCap → len % 5 ≠ 0 →
      exec .decodeDefault s = .next { s with err := 1, errWin := 0, outLen := 0 }) ∧
    (∀ (m : Nat) (v : Nat → Nat), len ≤ s.params.bufCap → len = 5 * k → m ≤ 3 →
      (∀ i, i < len - m → v i < 85 ∧ s.charBuf.read i = charOfDigit s.params (v i)) →
      (∀ i, len - m ≤ i → i < len → v i = 84 ∧ s.charBuf.read i = some (markEntry s.params)) →
      ∃ t, exec .decodeDefault s = .next t ∧
        t = { s with byteBuf := t.byteBuf, outLen := BitVec.ofNat 32 (4 * k - m), err := 0, errWin := 0 } ∧
        (∀ i, i < 4 * k - m → t.byteBuf.read i = some (decodedByte v i)) ∧
        ∀ i, 4 * k - m ≤ i → t.byteBuf.read i = s.byteBuf.read i) ∧
    (∀ w, len ≤ s.params.bufCap → len = 5 * k → w < k → (∀ i, i < 5 * w → GoodEntry s i) →
      (∀ q, q < 5 → s.charBuf.read (5 * w + q) ≠ none) →
      (w + 1 < k ∧ ∃ q, q < 5 ∧ BadEntry s (5 * w + q)) ∨
        (w + 1 = k ∧ ∃ m, TrailingMarks s w m ∧ (4 ≤ m ∨ ∃ q, q < 5 - m ∧ BadEntry s (5 * w + q))) →
      exec .decodeDefault s = .next { s with err := 2, errWin := BitVec.ofNat 32 w, outLen := 0 })

/-- R151: DECODE.STRICT on `L = 5k` characters. The checks in their order; success with `4k` bytes out; and
INVALID_CHARACTER at the lowest window with a bad character. -/
def Obligations.DecodeStrictResult : Prop :=
  ∀ (s : State) (len k : Nat), s.params.Valid → s.inLen.toNat = len →
    (s.params.bufCap < len → exec .decodeStrict s = .next { s with err := 4, errWin := 0, outLen := 0 }) ∧
    (len ≤ s.params.bufCap → len % 5 ≠ 0 →
      exec .decodeStrict s = .next { s with err := 1, errWin := 0, outLen := 0 }) ∧
    (∀ v : Nat → Nat, len ≤ s.params.bufCap → len = 5 * k →
      (∀ i, i < len → v i < 85 ∧ s.charBuf.read i = charOfDigit s.params (v i)) →
      ∃ t, exec .decodeStrict s = .next t ∧
        t = { s with byteBuf := t.byteBuf, outLen := BitVec.ofNat 32 (4 * k), err := 0, errWin := 0 } ∧
        (∀ i, i < 4 * k → t.byteBuf.read i = some (decodedByte v i)) ∧
        ∀ i, 4 * k ≤ i → t.byteBuf.read i = s.byteBuf.read i) ∧
    (∀ w, len ≤ s.params.bufCap → len = 5 * k → w < k → (∀ i, i < 5 * w → GoodEntry s i) →
      (∀ q, q < 5 → s.charBuf.read (5 * w + q) ≠ none) → (∃ q, q < 5 ∧ BadEntry s (5 * w + q)) →
      exec .decodeStrict s = .next { s with err := 2, errWin := BitVec.ofNat 32 w, outLen := 0 })

/-- R152: DECODE.PADDED on `L` characters, `k = ceil(L/5)` windows. The two capacity checks; success with the digits
beyond the input 0 and `4k` bytes out; and INVALID_CHARACTER at the lowest window with a bad character among the
input's own. -/
def Obligations.DecodePaddedResult : Prop :=
  ∀ (s : State) (len k : Nat), s.params.Valid → s.inLen.toNat = len → k = (len + 4) / 5 →
    (s.params.bufCap < len ∨ s.params.bufCap < 4 * k →
      exec .decodePadded s = .next { s with err := 4, errWin := 0, outLen := 0 }) ∧
    (∀ v : Nat → Nat, len ≤ s.params.bufCap → 4 * k ≤ s.params.bufCap →
      (∀ i, i < len → v i < 85 ∧ s.charBuf.read i = charOfDigit s.params (v i)) → (∀ i, len ≤ i → v i = 0) →
      ∃ t, exec .decodePadded s = .next t ∧
        t = { s with byteBuf := t.byteBuf, outLen := BitVec.ofNat 32 (4 * k), err := 0, errWin := 0 } ∧
        (∀ i, i < 4 * k → t.byteBuf.read i = some (decodedByte v i)) ∧
        ∀ i, 4 * k ≤ i → t.byteBuf.read i = s.byteBuf.read i) ∧
    (∀ w, len ≤ s.params.bufCap → 4 * k ≤ s.params.bufCap → CharsWritten s →
      (∀ i, i < 5 * w → GoodEntry s i) → (∃ q, q < 5 ∧ 5 * w + q < len ∧ BadEntry s (5 * w + q)) →
      exec .decodePadded s = .next { s with err := 2, errWin := BitVec.ofNat 32 w, outLen := 0 })

/-! ## Properties the rules give -/

/-- R160: ENCODE.DEFAULT, then `IN_LEN <- OUT_LEN`, then DECODE.DEFAULT leaves `ERR = NONE`, `OUT_LEN = n` and the input
bytes. It does so whatever `BYTE_BUF` holds when the decode starts, so that the bytes are the decode's own. -/
def Obligations.DefaultRoundTrip : Prop :=
  ∀ (s : State) (n : Nat), s.params.Valid → s.inLen.toNat = n → 5 * ((n + 3) / 4) ≤ s.params.bufCap →
    BytesWritten s →
    ∃ t, exec .encodeDefault s = .next t ∧ ∀ m : Memory 8,
      ∃ u, exec .decodeDefault { t with inLen := t.outLen, byteBuf := m } = .next u ∧
        u.err = 0 ∧ u.outLen = s.inLen ∧ ∀ i, i < n → u.byteBuf.read i = s.byteBuf.read i

/-- R161: for `n mod 4 = 0`, ENCODE.STRICT then DECODE.STRICT restores the input, whatever `BYTE_BUF` holds when the decode
starts; for every other `n` that fits the buffer (R173), ENCODE.STRICT fails with INVALID_LENGTH, whether or not its
output would fit and its input is written. -/
def Obligations.StrictRoundTrip : Prop :=
  ∀ (s : State) (n : Nat), s.inLen.toNat = n →
    (s.params.Valid → n % 4 = 0 → 5 * (n / 4) ≤ s.params.bufCap → BytesWritten s →
      ∃ t, exec .encodeStrict s = .next t ∧ ∀ m : Memory 8,
        ∃ u, exec .decodeStrict { t with inLen := t.outLen, byteBuf := m } = .next u ∧
          u.err = 0 ∧ u.outLen = s.inLen ∧ ∀ i, i < n → u.byteBuf.read i = s.byteBuf.read i) ∧
    (n % 4 ≠ 0 → n ≤ s.params.bufCap → ∃ t, exec .encodeStrict s = .next t ∧ t.err = 1)

/-- R162: ENCODE.PADDED then DECODE.PADDED gives the input and `(4 - n mod 4) mod 4` zero bytes, `4*ceil(n/4)` in all,
whatever `BYTE_BUF` holds when the decode starts. -/
def Obligations.PaddedLossiness : Prop :=
  ∀ (s : State) (n : Nat), s.params.Valid → s.inLen.toNat = n → 5 * ((n + 3) / 4) ≤ s.params.bufCap →
    BytesWritten s →
    ∃ t, exec .encodePadded s = .next t ∧ ∀ m : Memory 8,
      ∃ u, exec .decodePadded { t with inLen := t.outLen, byteBuf := m } = .next u ∧
        u.err = 0 ∧ u.outLen.toNat = 4 * ((n + 3) / 4) ∧ 4 * ((n + 3) / 4) = n + (4 - n % 4) % 4 ∧
        (∀ i, i < n → u.byteBuf.read i = s.byteBuf.read i) ∧
        ∀ i, n ≤ i → i < 4 * ((n + 3) / 4) → u.byteBuf.read i = some 0

/-- R163: the output lengths of the six buffer commands on success. -/
def Obligations.OutputLengths : Prop :=
  ∀ (s t : State) (n : Nat), s.params.Valid → s.inLen.toNat = n → t.err = 0 →
    (exec .encodeDefault s = .next t → t.outLen.toNat = 5 * ((n + 3) / 4)) ∧
    (exec .encodePadded s = .next t → t.outLen.toNat = 5 * ((n + 3) / 4)) ∧
    (exec .encodeStrict s = .next t → n % 4 = 0 ∧ 4 * t.outLen.toNat = 5 * n) ∧
    (exec .decodeStrict s = .next t → n % 5 = 0 ∧ 5 * t.outLen.toNat = 4 * n) ∧
    (exec .decodeDefault s = .next t → n % 5 = 0 ∧
      ∃ m, m ≤ 3 ∧ t.outLen.toNat + m = 4 * (n / 5) ∧ (0 < n → TrailingMarks s (n / 5 - 1) m) ∧ (n = 0 → m = 0)) ∧
    (exec .decodePadded s = .next t → t.outLen.toNat = 4 * ((n + 4) / 5))

/-- R164: every entry an ENCODE writes is an alphabet character, but for the `4 - r` trailing positions that
ENCODE.DEFAULT marks when `n mod 4 = r != 0`. -/
def Obligations.AlphabetClosure : Prop :=
  ∀ (i : Instr) (s t : State), isEncode i → s.params.Valid → exec i s = .next t → t.err = 0 →
    ∀ e, e < t.outLen.toNat →
      if i = .encodeDefault ∧ s.inLen.toNat % 4 ≠ 0 ∧ t.outLen.toNat ≤ e + (4 - s.inLen.toNat % 4) then
        t.charBuf.read e = some (markEntry s.params)
      else ∃ k, t.charBuf.read e = some k ∧ ValidChar s.params k

/-- R165: a DECODE whose input holds a bad character, other than a mark position of DECODE.DEFAULT, fails with
INVALID_CHARACTER, once the checks that come before (R173) have passed. -/
def Obligations.DecodeRejection : Prop :=
  ∀ s : State, s.params.Valid → s.inLen.toNat ≤ s.params.bufCap → CharsWritten s →
    (s.inLen.toNat % 5 = 0 → (∃ i, i < s.inLen.toNat ∧ BadEntry s i) →
      ∃ t, exec .decodeStrict s = .next t ∧ t.err = 2) ∧
    (s.inLen.toNat % 5 = 0 →
      (∃ i, i < s.inLen.toNat ∧ BadEntry s i ∧
        ∀ m, TrailingMarks s (s.inLen.toNat / 5 - 1) m → i < s.inLen.toNat - m) →
      ∃ t, exec .decodeDefault s = .next t ∧ t.err = 2) ∧
    (4 * ((s.inLen.toNat + 4) / 5) ≤ s.params.bufCap → (∃ i, i < s.inLen.toNat ∧ BadEntry s i) →
      ∃ t, exec .decodePadded s = .next t ∧ t.err = 2)

/-! ## Errors, frames and whole-machine rules -/

/-- R170, R171: which errors each command can report, and that the window is reported for INVALID_CHARACTER only. -/
def Obligations.ErrorKindsOfEachCommand : Prop :=
  ∀ (i : Instr) (s t : State), i.wellFormed = true → exec i s = .next t →
    (t.err ≠ 2 → t.errWin = 0) ∧ (i = .dec5 → t.errWin = 0) ∧
    match i with
    | .enc4 => t.err = 0
    | .dec5 => t.err = 0 ∨ t.err = 2
    | .encodeDefault => t.err = 0 ∨ t.err = 4
    | .encodeStrict => t.err = 0 ∨ t.err = 1 ∨ t.err = 4
    | .encodePadded => t.err = 0 ∨ t.err = 4
    | .decodeDefault => t.err = 0 ∨ t.err = 1 ∨ t.err = 2 ∨ t.err = 4
    | .decodeStrict => t.err = 0 ∨ t.err = 1 ∨ t.err = 2 ∨ t.err = 4
    | .decodePadded => t.err = 0 ∨ t.err = 2 ∨ t.err = 4
    | .rdalpha _ => t.err = 0

/-- R174: a command that fails writes `ERR`, `ERR_WIN` (0 but for INVALID_CHARACTER) and, for a buffer command,
`OUT_LEN <- 0`, and nothing else; an illegal word only `ERR` and `ERR_WIN`. -/
def Obligations.FailureEffects : Prop :=
  (∀ (i : Instr) (s t : State), exec i s = .next t → t.err ≠ 0 →
    t = { s with
      err := t.err, errWin := t.errWin, outLen := if isBufferCommand i = true then 0 else s.outLen } ∧
    (t.err ≠ 2 → t.errWin = 0)) ∧
  (∀ (s : State) (w : Word) (why : IllegalWord), decode w = .illegal why →
    issueCommand w s = .next { s with err := 3, errWin := 0 })

/-- R172: a failed command fails identically when it is repeated. -/
def Obligations.FailureRepeatsIdentically : Prop :=
  ∀ (i : Instr) (s t : State), exec i s = .next t → t.err ≠ 0 → exec i t = .next t

/-- R32, R177: no command reads `STATUS` or `ERR_WIN`; each overwrites both. -/
def Obligations.StatusIsNeverRead : Prop :=
  ∀ (i : Instr) (s : State) (e : BitVec 3) (win : Word),
    exec i { s with err := e, errWin := win } = exec i s

/-- R54, R24 ("written by"), R58: the frame of every command. It keeps the parameters, the operand registers and the
host's side; it writes `DATA_OUT` only as DEC5, `CHR_OUT` only as ENC4 or (entry 0) RDALPHA, `OUT_LEN` only as a buffer
command; it never writes the buffer it reads, and writes the other only at `[0..OUT_LEN)`. -/
def Obligations.CommandFrame : Prop :=
  ∀ (i : Instr) (s t : State), s.params.Valid → exec i s = .next t →
    t.params = s.params ∧ t.dataIn = s.dataIn ∧ t.chrIn = s.chrIn ∧ t.inLen = s.inLen ∧ t.pending = s.pending ∧
    t.replies = s.replies ∧
    (i ≠ .dec5 → t.dataOut = s.dataOut) ∧
    (i ≠ .enc4 → t.chrOut = { s.chrOut with c0 := t.chrOut.c0 }) ∧
    (i ≠ .enc4 → (∀ a, i ≠ .rdalpha a) → t.chrOut = s.chrOut) ∧
    (isBufferCommand i = false → t.outLen = s.outLen) ∧
    (¬ isEncode i → t.charBuf = s.charBuf) ∧
    (¬ isDecode i → t.byteBuf = s.byteBuf) ∧
    (isEncode i → ∀ k, t.outLen.toNat ≤ k → t.charBuf.read k = s.charBuf.read k) ∧
    (isDecode i → ∀ k, t.outLen.toNat ≤ k → t.byteBuf.read k = s.byteBuf.read k)

/-- R33: "A command's result depends only on its command word, the registers and buffer entries it reads, and the
constant ROMs." -/
def Obligations.ResultDependsOnlyOnOperands : Prop :=
  ∀ (i : Instr) (s s' t : State), SameOperands i s s' → exec i s = .next t →
    ∃ t', exec i s' = .next t' ∧ SameResults i t t'

/-- R195, with R64's conditions on the host: an action within the interface, its operands written, completes in one
step, and no command is ever refused. -/
def Obligations.WellBehavedActionsComplete : Prop :=
  (∀ (s : State) (a : HostAction) (rest : List HostAction), s.pending = a :: rest → WellBehaved s a →
    ∃ t, step s = .next t ∧ t.pending = rest) ∧
  (∀ (i : Instr) (s : State) (r : Refusal), exec i s ≠ .refused r)

/-- I3, R193 (the spec's own choice D24; the order of reads is DEDUCED, log entry 13): a buffer command whose checks pass
faults when it reads an entry never written: an ENCODE and DECODE.PADDED for any entry of the input, DECODE.STRICT and
DECODE.DEFAULT for one in the first window that does not decode. -/
def Obligations.UnwrittenOperandFaults : Prop :=
  ∀ (s : State) (n : Nat), s.params.Valid → s.inLen.toNat = n → n ≤ s.params.bufCap →
    (5 * ((n + 3) / 4) ≤ s.params.bufCap → ¬ BytesWritten s →
      exec .encodeDefault s = .fault (.unwrittenEntry .byteBuf) ∧
      exec .encodePadded s = .fault (.unwrittenEntry .byteBuf) ∧
      (n % 4 = 0 → exec .encodeStrict s = .fault (.unwrittenEntry .byteBuf))) ∧
    (4 * ((n + 4) / 5) ≤ s.params.bufCap → ¬ CharsWritten s →
      exec .decodePadded s = .fault (.unwrittenEntry .charBuf)) ∧
    (∀ w q, n % 5 = 0 → 5 * w < n → (∀ i, i < 5 * w → GoodEntry s i) → q < 5 →
      s.charBuf.read (5 * w + q) = none →
      exec .decodeStrict s = .fault (.unwrittenEntry .charBuf) ∧
      exec .decodeDefault s = .fault (.unwrittenEntry .charBuf))

/-- R20, R22, R25, R26, R28, R30, R65: every step keeps what the spec promises of every state (`State.Inv`), from every
state that has it. -/
def Obligations.StepKeepsTheInvariant : Prop :=
  ∀ s t : State, s.Inv → step s = .next t → t.Inv

/-- The state after reset meets the invariant. That its parameters are legal rests on the model's choices of them (log
entry 2, PRESUMED; log entries 3 and 4, DESIGN CHOICE), that its registers and buffers do on R190. -/
def Obligations.ResetMeetsTheInvariant : Prop := State.reset.Inv
end

