-- ==== Sys2Proof/Laws/State.lean ====
section
/-! SUPPORT. One lemma per field per state update, each true by rfl, so that no later proof unfolds a record update. -/

namespace Sys2Proof.Machine

/-! ## `report` -/

@[simp] theorem report_params (s : State) (kind : ErrKind) (win : Nat) : (report s kind win).params = s.params := rfl
@[simp] theorem report_err (s : State) (kind : ErrKind) (win : Nat) : (report s kind win).err = kind.code := rfl
@[simp] theorem report_errWin (s : State) (kind : ErrKind) (win : Nat) : (report s kind win).errWin = BitVec.ofNat 32 win := rfl
@[simp] theorem report_dataIn (s : State) (kind : ErrKind) (win : Nat) : (report s kind win).dataIn = s.dataIn := rfl
@[simp] theorem report_dataOut (s : State) (kind : ErrKind) (win : Nat) : (report s kind win).dataOut = s.dataOut := rfl
@[simp] theorem report_chrIn (s : State) (kind : ErrKind) (win : Nat) : (report s kind win).chrIn = s.chrIn := rfl
@[simp] theorem report_chrOut (s : State) (kind : ErrKind) (win : Nat) : (report s kind win).chrOut = s.chrOut := rfl
@[simp] theorem report_inLen (s : State) (kind : ErrKind) (win : Nat) : (report s kind win).inLen = s.inLen := rfl
@[simp] theorem report_outLen (s : State) (kind : ErrKind) (win : Nat) : (report s kind win).outLen = s.outLen := rfl
@[simp] theorem report_byteBuf (s : State) (kind : ErrKind) (win : Nat) : (report s kind win).byteBuf = s.byteBuf := rfl
@[simp] theorem report_charBuf (s : State) (kind : ErrKind) (win : Nat) : (report s kind win).charBuf = s.charBuf := rfl
@[simp] theorem report_pending (s : State) (kind : ErrKind) (win : Nat) : (report s kind win).pending = s.pending := rfl
@[simp] theorem report_replies (s : State) (kind : ErrKind) (win : Nat) : (report s kind win).replies = s.replies := rfl

/-! ## `raiseErr` -/

@[simp] theorem raiseErr_params (s : State) (kind : ErrKind) (win : Nat) : (raiseErr s kind win).params = s.params := rfl
@[simp] theorem raiseErr_err (s : State) (kind : ErrKind) (win : Nat) : (raiseErr s kind win).err = kind.code := rfl
@[simp] theorem raiseErr_errWin (s : State) (kind : ErrKind) (win : Nat) : (raiseErr s kind win).errWin = BitVec.ofNat 32 win := rfl
@[simp] theorem raiseErr_dataIn (s : State) (kind : ErrKind) (win : Nat) : (raiseErr s kind win).dataIn = s.dataIn := rfl
@[simp] theorem raiseErr_dataOut (s : State) (kind : ErrKind) (win : Nat) : (raiseErr s kind win).dataOut = s.dataOut := rfl
@[simp] theorem raiseErr_chrIn (s : State) (kind : ErrKind) (win : Nat) : (raiseErr s kind win).chrIn = s.chrIn := rfl
@[simp] theorem raiseErr_chrOut (s : State) (kind : ErrKind) (win : Nat) : (raiseErr s kind win).chrOut = s.chrOut := rfl
@[simp] theorem raiseErr_inLen (s : State) (kind : ErrKind) (win : Nat) : (raiseErr s kind win).inLen = s.inLen := rfl
@[simp] theorem raiseErr_outLen (s : State) (kind : ErrKind) (win : Nat) : (raiseErr s kind win).outLen = s.outLen := rfl
@[simp] theorem raiseErr_byteBuf (s : State) (kind : ErrKind) (win : Nat) : (raiseErr s kind win).byteBuf = s.byteBuf := rfl
@[simp] theorem raiseErr_charBuf (s : State) (kind : ErrKind) (win : Nat) : (raiseErr s kind win).charBuf = s.charBuf := rfl
@[simp] theorem raiseErr_pending (s : State) (kind : ErrKind) (win : Nat) : (raiseErr s kind win).pending = s.pending := rfl
@[simp] theorem raiseErr_replies (s : State) (kind : ErrKind) (win : Nat) : (raiseErr s kind win).replies = s.replies := rfl

/-! ## `raiseBufferErr` -/

@[simp] theorem raiseBufferErr_params (s : State) (kind : ErrKind) (win : Nat) : (raiseBufferErr s kind win).params = s.params := rfl
@[simp] theorem raiseBufferErr_err (s : State) (kind : ErrKind) (win : Nat) : (raiseBufferErr s kind win).err = kind.code := rfl
@[simp] theorem raiseBufferErr_errWin (s : State) (kind : ErrKind) (win : Nat) : (raiseBufferErr s kind win).errWin = BitVec.ofNat 32 win := rfl
@[simp] theorem raiseBufferErr_dataIn (s : State) (kind : ErrKind) (win : Nat) : (raiseBufferErr s kind win).dataIn = s.dataIn := rfl
@[simp] theorem raiseBufferErr_dataOut (s : State) (kind : ErrKind) (win : Nat) : (raiseBufferErr s kind win).dataOut = s.dataOut := rfl
@[simp] theorem raiseBufferErr_chrIn (s : State) (kind : ErrKind) (win : Nat) : (raiseBufferErr s kind win).chrIn = s.chrIn := rfl
@[simp] theorem raiseBufferErr_chrOut (s : State) (kind : ErrKind) (win : Nat) : (raiseBufferErr s kind win).chrOut = s.chrOut := rfl
@[simp] theorem raiseBufferErr_inLen (s : State) (kind : ErrKind) (win : Nat) : (raiseBufferErr s kind win).inLen = s.inLen := rfl
@[simp] theorem raiseBufferErr_outLen (s : State) (kind : ErrKind) (win : Nat) : (raiseBufferErr s kind win).outLen = 0 := rfl
@[simp] theorem raiseBufferErr_byteBuf (s : State) (kind : ErrKind) (win : Nat) : (raiseBufferErr s kind win).byteBuf = s.byteBuf := rfl
@[simp] theorem raiseBufferErr_charBuf (s : State) (kind : ErrKind) (win : Nat) : (raiseBufferErr s kind win).charBuf = s.charBuf := rfl
@[simp] theorem raiseBufferErr_pending (s : State) (kind : ErrKind) (win : Nat) : (raiseBufferErr s kind win).pending = s.pending := rfl
@[simp] theorem raiseBufferErr_replies (s : State) (kind : ErrKind) (win : Nat) : (raiseBufferErr s kind win).replies = s.replies := rfl

/-! ## `succeed` -/

@[simp] theorem succeed_params (s : State) : (succeed s).params = s.params := rfl
@[simp] theorem succeed_err (s : State) : (succeed s).err = 0 := rfl
@[simp] theorem succeed_errWin (s : State) : (succeed s).errWin = 0 := rfl
@[simp] theorem succeed_dataIn (s : State) : (succeed s).dataIn = s.dataIn := rfl
@[simp] theorem succeed_dataOut (s : State) : (succeed s).dataOut = s.dataOut := rfl
@[simp] theorem succeed_chrIn (s : State) : (succeed s).chrIn = s.chrIn := rfl
@[simp] theorem succeed_chrOut (s : State) : (succeed s).chrOut = s.chrOut := rfl
@[simp] theorem succeed_inLen (s : State) : (succeed s).inLen = s.inLen := rfl
@[simp] theorem succeed_outLen (s : State) : (succeed s).outLen = s.outLen := rfl
@[simp] theorem succeed_byteBuf (s : State) : (succeed s).byteBuf = s.byteBuf := rfl
@[simp] theorem succeed_charBuf (s : State) : (succeed s).charBuf = s.charBuf := rfl
@[simp] theorem succeed_pending (s : State) : (succeed s).pending = s.pending := rfl
@[simp] theorem succeed_replies (s : State) : (succeed s).replies = s.replies := rfl

/-! ## `commitChars` -/

@[simp] theorem commitChars_params (s : State) (out : List Word) : (commitChars s out).params = s.params := rfl
@[simp] theorem commitChars_err (s : State) (out : List Word) : (commitChars s out).err = 0 := rfl
@[simp] theorem commitChars_errWin (s : State) (out : List Word) : (commitChars s out).errWin = 0 := rfl
@[simp] theorem commitChars_dataIn (s : State) (out : List Word) : (commitChars s out).dataIn = s.dataIn := rfl
@[simp] theorem commitChars_dataOut (s : State) (out : List Word) : (commitChars s out).dataOut = s.dataOut := rfl
@[simp] theorem commitChars_chrIn (s : State) (out : List Word) : (commitChars s out).chrIn = s.chrIn := rfl
@[simp] theorem commitChars_chrOut (s : State) (out : List Word) : (commitChars s out).chrOut = s.chrOut := rfl
@[simp] theorem commitChars_inLen (s : State) (out : List Word) : (commitChars s out).inLen = s.inLen := rfl
@[simp] theorem commitChars_outLen (s : State) (out : List Word) : (commitChars s out).outLen = BitVec.ofNat 32 out.length := rfl
@[simp] theorem commitChars_byteBuf (s : State) (out : List Word) : (commitChars s out).byteBuf = s.byteBuf := rfl
@[simp] theorem commitChars_charBuf (s : State) (out : List Word) : (commitChars s out).charBuf = s.charBuf.writeRange 0 out := rfl
@[simp] theorem commitChars_pending (s : State) (out : List Word) : (commitChars s out).pending = s.pending := rfl
@[simp] theorem commitChars_replies (s : State) (out : List Word) : (commitChars s out).replies = s.replies := rfl

/-! ## `commitBytes` -/

@[simp] theorem commitBytes_params (s : State) (out : List Byte) : (commitBytes s out).params = s.params := rfl
@[simp] theorem commitBytes_err (s : State) (out : List Byte) : (commitBytes s out).err = 0 := rfl
@[simp] theorem commitBytes_errWin (s : State) (out : List Byte) : (commitBytes s out).errWin = 0 := rfl
@[simp] theorem commitBytes_dataIn (s : State) (out : List Byte) : (commitBytes s out).dataIn = s.dataIn := rfl
@[simp] theorem commitBytes_dataOut (s : State) (out : List Byte) : (commitBytes s out).dataOut = s.dataOut := rfl
@[simp] theorem commitBytes_chrIn (s : State) (out : List Byte) : (commitBytes s out).chrIn = s.chrIn := rfl
@[simp] theorem commitBytes_chrOut (s : State) (out : List Byte) : (commitBytes s out).chrOut = s.chrOut := rfl
@[simp] theorem commitBytes_inLen (s : State) (out : List Byte) : (commitBytes s out).inLen = s.inLen := rfl
@[simp] theorem commitBytes_outLen (s : State) (out : List Byte) : (commitBytes s out).outLen = BitVec.ofNat 32 out.length := rfl
@[simp] theorem commitBytes_byteBuf (s : State) (out : List Byte) : (commitBytes s out).byteBuf = s.byteBuf.writeRange 0 out := rfl
@[simp] theorem commitBytes_charBuf (s : State) (out : List Byte) : (commitBytes s out).charBuf = s.charBuf := rfl
@[simp] theorem commitBytes_pending (s : State) (out : List Byte) : (commitBytes s out).pending = s.pending := rfl
@[simp] theorem commitBytes_replies (s : State) (out : List Byte) : (commitBytes s out).replies = s.replies := rfl

/-! ## `takeAction` -/

@[simp] theorem takeAction_params (s : State) (rest : List HostAction) : (takeAction s rest).params = s.params := rfl
@[simp] theorem takeAction_err (s : State) (rest : List HostAction) : (takeAction s rest).err = s.err := rfl
@[simp] theorem takeAction_errWin (s : State) (rest : List HostAction) : (takeAction s rest).errWin = s.errWin := rfl
@[simp] theorem takeAction_dataIn (s : State) (rest : List HostAction) : (takeAction s rest).dataIn = s.dataIn := rfl
@[simp] theorem takeAction_dataOut (s : State) (rest : List HostAction) : (takeAction s rest).dataOut = s.dataOut := rfl
@[simp] theorem takeAction_chrIn (s : State) (rest : List HostAction) : (takeAction s rest).chrIn = s.chrIn := rfl
@[simp] theorem takeAction_chrOut (s : State) (rest : List HostAction) : (takeAction s rest).chrOut = s.chrOut := rfl
@[simp] theorem takeAction_inLen (s : State) (rest : List HostAction) : (takeAction s rest).inLen = s.inLen := rfl
@[simp] theorem takeAction_outLen (s : State) (rest : List HostAction) : (takeAction s rest).outLen = s.outLen := rfl
@[simp] theorem takeAction_byteBuf (s : State) (rest : List HostAction) : (takeAction s rest).byteBuf = s.byteBuf := rfl
@[simp] theorem takeAction_charBuf (s : State) (rest : List HostAction) : (takeAction s rest).charBuf = s.charBuf := rfl
@[simp] theorem takeAction_pending (s : State) (rest : List HostAction) : (takeAction s rest).pending = rest := rfl
@[simp] theorem takeAction_replies (s : State) (rest : List HostAction) : (takeAction s rest).replies = s.replies := rfl

/-! ## `withCommand` -/

@[simp] theorem withCommand_params (s : State) (w : Word) : (withCommand s w).params = s.params := rfl
@[simp] theorem withCommand_err (s : State) (w : Word) : (withCommand s w).err = s.err := rfl
@[simp] theorem withCommand_errWin (s : State) (w : Word) : (withCommand s w).errWin = s.errWin := rfl
@[simp] theorem withCommand_dataIn (s : State) (w : Word) : (withCommand s w).dataIn = s.dataIn := rfl
@[simp] theorem withCommand_dataOut (s : State) (w : Word) : (withCommand s w).dataOut = s.dataOut := rfl
@[simp] theorem withCommand_chrIn (s : State) (w : Word) : (withCommand s w).chrIn = s.chrIn := rfl
@[simp] theorem withCommand_chrOut (s : State) (w : Word) : (withCommand s w).chrOut = s.chrOut := rfl
@[simp] theorem withCommand_inLen (s : State) (w : Word) : (withCommand s w).inLen = s.inLen := rfl
@[simp] theorem withCommand_outLen (s : State) (w : Word) : (withCommand s w).outLen = s.outLen := rfl
@[simp] theorem withCommand_byteBuf (s : State) (w : Word) : (withCommand s w).byteBuf = s.byteBuf := rfl
@[simp] theorem withCommand_charBuf (s : State) (w : Word) : (withCommand s w).charBuf = s.charBuf := rfl
@[simp] theorem withCommand_pending (s : State) (w : Word) : (withCommand s w).pending = .regWrite 0x00 w :: s.pending := rfl
@[simp] theorem withCommand_replies (s : State) (w : Word) : (withCommand s w).replies = s.replies := rfl

/-! ## `reply` -/

@[simp] theorem reply_params (s : State) (r : Reply) : (reply s r).params = s.params := rfl
@[simp] theorem reply_err (s : State) (r : Reply) : (reply s r).err = s.err := rfl
@[simp] theorem reply_errWin (s : State) (r : Reply) : (reply s r).errWin = s.errWin := rfl
@[simp] theorem reply_dataIn (s : State) (r : Reply) : (reply s r).dataIn = s.dataIn := rfl
@[simp] theorem reply_dataOut (s : State) (r : Reply) : (reply s r).dataOut = s.dataOut := rfl
@[simp] theorem reply_chrIn (s : State) (r : Reply) : (reply s r).chrIn = s.chrIn := rfl
@[simp] theorem reply_chrOut (s : State) (r : Reply) : (reply s r).chrOut = s.chrOut := rfl
@[simp] theorem reply_inLen (s : State) (r : Reply) : (reply s r).inLen = s.inLen := rfl
@[simp] theorem reply_outLen (s : State) (r : Reply) : (reply s r).outLen = s.outLen := rfl
@[simp] theorem reply_byteBuf (s : State) (r : Reply) : (reply s r).byteBuf = s.byteBuf := rfl
@[simp] theorem reply_charBuf (s : State) (r : Reply) : (reply s r).charBuf = s.charBuf := rfl
@[simp] theorem reply_pending (s : State) (r : Reply) : (reply s r).pending = s.pending := rfl
@[simp] theorem reply_replies (s : State) (r : Reply) : (reply s r).replies = s.replies ++ [r] := rfl

end Sys2Proof.Machine
end

