-- ==== Sys2Proof/Laws/Memory.lean ====
section
/-! SUPPORT. The laws of the buffers: a read after a write, and every operation keeps the canonical form. -/

namespace Sys2Proof.Machine

variable {w : Nat}

@[simp] theorem Memory.read_nil (i : Nat) : Memory.read ([] : Memory w) i = none := rfl

theorem Memory.read_cons (a : Nat) (v : BitVec w) (m : Memory w) (i : Nat) :
    Memory.read ((a, v) :: m) i = if i = a then some v else Memory.read m i := rfl

/-- A read after a write to the same entry gives the value written. -/
@[simp] theorem Memory.read_write_same (m : Memory w) (i : Nat) (v : BitVec w) : (m.write i v).read i = some v := by
  induction m with
  | nil => simp [Memory.write, Memory.read]
  | cons e m ih =>
    obtain ⟨a, x⟩ := e
    unfold Memory.write
    split
    · simp [Memory.read]
    · split
      · simp [Memory.read]
      · next h => simp [Memory.read, h, ih]

/-- A write leaves every other entry alone. -/
theorem Memory.read_write_other (m : Memory w) {i k : Nat} (v : BitVec w) (h : k ≠ i) :
    (m.write i v).read k = m.read k := by
  induction m with
  | nil => simp [Memory.write, Memory.read, h]
  | cons e m ih =>
    obtain ⟨a, x⟩ := e
    unfold Memory.write
    split
    · simp [Memory.read, h]
    · split
      · next h2 => subst h2; simp [Memory.read, h]
      · simp only [Memory.read, ih]

theorem Memory.read_write (m : Memory w) (i k : Nat) (v : BitVec w) :
    (m.write i v).read k = if k = i then some v else m.read k := by
  split
  · next h => subst h; simp
  · next h => exact Memory.read_write_other m v h

/-- What a range write leaves at an entry: the value written there, or what was there. -/
theorem Memory.read_writeRange (m : Memory w) (i k : Nat) (vs : List (BitVec w)) :
    (m.writeRange i vs).read k = if i ≤ k ∧ k < i + vs.length then vs[k - i]? else m.read k := by
  induction vs generalizing m i with
  | nil => simp [Memory.writeRange]
  | cons v vs ih =>
    rw [Memory.writeRange, ih, Memory.read_write]
    by_cases hk : k = i
    · subst hk; simp
    · by_cases h : i + 1 ≤ k
      · have e : k - i = (k - (i + 1)) + 1 := by omega
        rw [e, List.getElem?_cons_succ]
        simp only [List.length_cons, hk, if_false]
        congr 1
        apply propext; constructor <;> intro hh <;> omega
      · have h1 : ¬ (i + 1 ≤ k ∧ k < i + 1 + vs.length) := by omega
        have h2 : ¬ (i ≤ k ∧ k < i + (v :: vs).length) := by omega
        rw [if_neg h1, if_neg h2, if_neg hk]

/-- A range write from entry 0 on: the range holds the values, the rest is as before. -/
theorem Memory.read_writeRange_zero (m : Memory w) (k : Nat) (vs : List (BitVec w)) :
    (m.writeRange 0 vs).read k = if k < vs.length then vs[k]? else m.read k := by
  simp [Memory.read_writeRange]

/-- A range read succeeds exactly when every entry of the range was written, and gives those entries. -/
theorem Memory.readRange_eq_some (m : Memory w) (i n : Nat) (vs : List (BitVec w)) :
    m.readRange i n = some vs ↔ vs.length = n ∧ ∀ k, k < n → m.read (i + k) = vs[k]? := by
  induction n generalizing i vs with
  | zero =>
    simp only [Memory.readRange, Option.some.injEq]
    constructor
    · rintro rfl; simp
    · rintro ⟨h, -⟩; exact (List.length_eq_zero_iff.mp h).symm
  | succ n ih =>
    simp only [Memory.readRange]
    cases hr : m.read i with
    | none =>
      simp only [reduceCtorEq, false_iff, not_and, not_forall]
      intro hl
      refine ⟨0, by omega, ?_⟩
      have : 0 < vs.length := by omega
      simp [hr, this]
    | some v =>
      simp only [Option.map_eq_some_iff]
      constructor
      · rintro ⟨us, hus, rfl⟩
        obtain ⟨hl, hk⟩ := (ih (i + 1) us).mp hus
        refine ⟨by simp [hl], ?_⟩
        intro k hkn
        cases k with
        | zero => simp [hr]
        | succ k =>
          have := hk k (by omega)
          rw [List.getElem?_cons_succ, ← this]
          congr 1; omega
      · rintro ⟨hl, hk⟩
        cases vs with
        | nil => simp at hl
        | cons u us =>
          have h0 := hk 0 (by omega)
          simp [hr] at h0
          subst h0
          refine ⟨us, (ih (i + 1) us).mpr ⟨by simpa using hl, ?_⟩, rfl⟩
          intro k hkn
          have := hk (k + 1) (by omega)
          rw [List.getElem?_cons_succ] at this
          rw [← this]; congr 1; omega

/-- A range read fails exactly when some entry of the range was never written. -/
theorem Memory.readRange_eq_none (m : Memory w) (i n : Nat) :
    m.readRange i n = none ↔ ∃ k, k < n ∧ m.read (i + k) = none := by
  induction n generalizing i with
  | zero => simp [Memory.readRange]
  | succ n ih =>
    simp only [Memory.readRange]
    cases hr : m.read i with
    | none => simp; exact ⟨0, by omega, by simpa using hr⟩
    | some v =>
      simp only [Option.map_eq_none_iff, ih]
      constructor
      · rintro ⟨k, hk, h⟩; exact ⟨k + 1, by omega, by rw [← h]; congr 1; omega⟩
      · rintro ⟨k, hk, h⟩
        cases k with
        | zero => simp [hr] at h
        | succ k => exact ⟨k, by omega, by rw [← h]; congr 1; omega⟩

/-! ## The canonical form -/

/-- The canonical form, said of the head and the rest: every listed index lies above the head's. -/
theorem Memory.wf_cons (a : Nat) (v : BitVec w) (m : Memory w) :
    Memory.wf ((a, v) :: m) = true ↔ Memory.wf m = true ∧ ∀ e ∈ m.head?, a < e.1 := by
  cases m with
  | nil => simp [Memory.wf]
  | cons e m => obtain ⟨b, y⟩ := e; simp [Memory.wf, and_comm]

theorem Memory.head?_write (m : Memory w) (i : Nat) (v : BitVec w) (e : Nat × BitVec w)
    (h : e ∈ (m.write i v).head?) : e.1 = i ∨ e ∈ m.head? := by
  cases m with
  | nil => simp [Memory.write] at h; subst h; simp
  | cons x m =>
    obtain ⟨a, y⟩ := x
    unfold Memory.write at h
    split at h
    · simp at h; subst h; simp
    · split at h
      · simp at h; subst h; simp
      · right; simpa using h

/-- A write keeps the canonical form. -/
theorem Memory.wf_write (m : Memory w) (i : Nat) (v : BitVec w) (h : m.wf = true) : (m.write i v).wf = true := by
  induction m with
  | nil => simp [Memory.write, Memory.wf]
  | cons x m ih =>
    obtain ⟨a, y⟩ := x
    obtain ⟨hm, ha⟩ := (Memory.wf_cons a y m).mp h
    unfold Memory.write
    split
    · next hlt => exact (Memory.wf_cons _ _ _).mpr ⟨h, by simpa using hlt⟩
    · split
      · next heq => subst heq; exact (Memory.wf_cons _ _ _).mpr ⟨hm, ha⟩
      · next h1 h2 =>
        refine (Memory.wf_cons _ _ _).mpr ⟨ih hm, ?_⟩
        intro e he
        rcases Memory.head?_write m i v e he with he | he
        · omega
        · exact ha e he

/-- A range write keeps the canonical form. -/
theorem Memory.wf_writeRange (m : Memory w) (i : Nat) (vs : List (BitVec w)) (h : m.wf = true) :
    (m.writeRange i vs).wf = true := by
  induction vs generalizing m i with
  | nil => exact h
  | cons v vs ih => exact ih _ _ (Memory.wf_write m i v h)

theorem Memory.within_iff (cap : Nat) (m : Memory w) : m.within cap = true ↔ ∀ e ∈ m, e.1 < cap := by
  simp only [Memory.within, List.all_eq_true, decide_eq_true_eq]

theorem Memory.mem_write (m : Memory w) (i : Nat) (v : BitVec w) (e : Nat × BitVec w) (h : e ∈ m.write i v) :
    e = (i, v) ∨ e ∈ m := by
  induction m with
  | nil => left; simpa [Memory.write] using h
  | cons x m ih =>
    obtain ⟨a, y⟩ := x
    unfold Memory.write at h
    split at h
    · simpa using h
    · split at h
      · rcases List.mem_cons.mp h with h | h
        · exact .inl h
        · exact .inr (List.mem_cons_of_mem _ h)
      · rcases List.mem_cons.mp h with h | h
        · exact .inr (h ▸ List.mem_cons_self)
        · exact (ih h).imp id (List.mem_cons_of_mem _)

/-- A write below the capacity stays below it. -/
theorem Memory.within_write {cap : Nat} (m : Memory w) {i : Nat} (v : BitVec w) (h : m.within cap = true)
    (hi : i < cap) : (m.write i v).within cap = true := by
  rw [Memory.within_iff] at h ⊢
  intro e he
  rcases Memory.mem_write m i v e he with rfl | he
  · exact hi
  · exact h e he

/-- A range write below the capacity stays below it. -/
theorem Memory.within_writeRange {cap : Nat} (m : Memory w) (i : Nat) (vs : List (BitVec w))
    (h : m.within cap = true) (hi : i + vs.length ≤ cap) : (m.writeRange i vs).within cap = true := by
  induction vs generalizing m i with
  | nil => exact h
  | cons v vs ih =>
    simp only [List.length_cons] at hi
    exact ih _ _ (Memory.within_write m v h (by omega)) (by omega)

/-- An entry that reads as written lies below the capacity. -/
theorem Memory.lt_of_read {cap : Nat} (m : Memory w) {i : Nat} {v : BitVec w} (h : m.within cap = true)
    (hr : m.read i = some v) : i < cap := by
  rw [Memory.within_iff] at h
  induction m with
  | nil => simp at hr
  | cons x m ih =>
    obtain ⟨a, y⟩ := x
    rw [Memory.read_cons] at hr
    split at hr
    · next he => subst he; exact h _ List.mem_cons_self
    · exact ih (fun e he => h e (List.mem_cons_of_mem _ he)) hr

/-- Reset's buffers list nothing, and so are in canonical form. -/
theorem reset_buffers_wf : Memory.wf State.reset.byteBuf = true ∧ Memory.wf State.reset.charBuf = true := ⟨rfl, rfl⟩

end Sys2Proof.Machine
end

