-- ==== Sys2Proof/Laws/Codec.lean ====
section
/-! SUPPORT. The spec lemmas of the ROMs, the cores and the byte order: each says what an operation computes in the
arithmetic vocabulary of Safety.lean, and later proofs cite it instead of unfolding the operation. -/

namespace Sys2Proof

/-! ## Five-place tuples -/

@[simp] theorem Quint.length_toList {α : Type} (q : Quint α) : q.toList.length = 5 := rfl

@[simp] theorem Quint.toList_map {α β : Type} (f : α → β) (q : Quint α) : (q.map f).toList = q.toList.map f := rfl

theorem Quint.toList_injective {α : Type} {q r : Quint α} (h : q.toList = r.toList) : q = r := by
  obtain ⟨a, b, c, d, e⟩ := q
  obtain ⟨a', b', c', d', e'⟩ := r
  simpa [Quint.toList] using h

/-- All five are there exactly when each is. -/
theorem Quint.allSome_eq_some {α : Type} (q : Quint (Option α)) (r : Quint α) :
    q.allSome = some r ↔
      q.c0 = some r.c0 ∧ q.c1 = some r.c1 ∧ q.c2 = some r.c2 ∧ q.c3 = some r.c3 ∧ q.c4 = some r.c4 := by
  obtain ⟨a, b, c, d, e⟩ := q
  obtain ⟨a', b', c', d', e'⟩ := r
  cases a <;> cases b <;> cases c <;> cases d <;> cases e <;> simp [Quint.allSome]

/-- One is missing exactly when some one is. -/
theorem Quint.allSome_eq_none {α : Type} (q : Quint (Option α)) :
    q.allSome = none ↔ q.c0 = none ∨ q.c1 = none ∨ q.c2 = none ∨ q.c3 = none ∨ q.c4 = none := by
  obtain ⟨a, b, c, d, e⟩ := q
  cases a <;> cases b <;> cases c <;> cases d <;> cases e <;> simp [Quint.allSome]

end Sys2Proof

namespace Sys2Proof.Machine

/-! ## The ROMs -/

theorem alpha_eq_getElem (p : Params) (v : Fin 85) : p.alphabet.toList[v.val]? = some (alpha p v) := by
  simp [alpha]

theorem charOfDigit_lt (p : Params) (v : Fin 85) : charOfDigit p v.val = some ((alpha p v).setWidth 32) := by
  rw [charOfDigit, alpha_eq_getElem]; rfl

theorem lt_of_charOfDigit {p : Params} {d : Nat} {k : Word} (h : charOfDigit p d = some k) : d < 85 := by
  by_contra hd
  rw [charOfDigit, List.getElem?_eq_none (by simp; omega)] at h
  simp at h

theorem charOfDigit_eq_some {p : Params} {d : Nat} {k : Word} :
    charOfDigit p d = some k ↔ ∃ h : d < 85, k = (alpha p ⟨d, h⟩).setWidth 32 := by
  constructor
  · intro h
    have hd := lt_of_charOfDigit h
    refine ⟨hd, ?_⟩
    have := charOfDigit_lt p ⟨d, hd⟩
    rw [h] at this
    exact Option.some.inj this
  · rintro ⟨h, rfl⟩; exact charOfDigit_lt p ⟨d, h⟩

theorem alpha_mem (p : Params) (v : Fin 85) : alpha p v ∈ p.alphabet.toList := by
  simp [alpha]

/-- The alphabet is one-to-one (R20). -/
theorem alpha_injective {p : Params} (hp : p.Valid) {u v : Fin 85} (h : alpha p u = alpha p v) : u = v := by
  have hu := alpha_eq_getElem p u
  have hv := alpha_eq_getElem p v
  rw [h, ← hv] at hu
  have hlt : u.val < p.alphabet.toList.length := by simp [u.isLt]
  exact Fin.ext ((List.getElem?_inj hlt hp.distinct).mp hu)

/-- `INDEX(ALPHABET[v]) = v` (R21). -/
theorem index_alpha {p : Params} (hp : p.Valid) (v : Fin 85) : index p (alpha p v) = BitVec.ofNat 8 v.val := by
  have hv := v.isLt
  have hlen : p.alphabet.toList.length = 85 := by simp
  have : p.alphabet.toList.findIdx? (fun a => a == alpha p v) = some v.val := by
    rw [List.findIdx?_eq_some_iff_getElem]
    refine ⟨by omega, by simp [alpha], ?_⟩
    intro j hj
    have hj85 : j < 85 := by omega
    have hne : alpha p ⟨j, hj85⟩ ≠ alpha p v := by
      intro h
      have := congrArg Fin.val (alpha_injective hp h)
      simp at this; omega
    simpa [alpha] using hne
  simp [index, this]

/-- `INDEX(c) = INVALID` when `c` is not in the alphabet (R21). -/
theorem index_eq_invalid_of_notMem {p : Params} {c : Code} (h : c ∉ p.alphabet.toList) :
    index p c = invalidEntry := by
  have : p.alphabet.toList.findIdx? (fun a => a == c) = none := by
    rw [List.findIdx?_eq_none_iff]
    intro x hx
    simp only [beq_eq_false_iff_ne, ne_eq]
    rintro rfl; exact h hx
  simp [index, this]

theorem mem_alphabet {p : Params} {c : Code} (h : c ∈ p.alphabet.toList) : ∃ v : Fin 85, alpha p v = c := by
  obtain ⟨i, hi, rfl⟩ := List.mem_iff_getElem.mp h
  exact ⟨⟨i, by simpa using hi⟩, by simp [alpha]⟩

theorem setWidth_code_injective {a b : Code} (h : a.setWidth 32 = b.setWidth 32) : a = b := by
  have := congrArg BitVec.toNat h
  simp only [BitVec.toNat_setWidth] at this
  have ha := a.isLt
  have hb := b.isLt
  exact BitVec.eq_of_toNat_eq (by omega)

/-- The digits of a character are its only digit (R20, R21). -/
theorem charOfDigit_injective {p : Params} (hp : p.Valid) {d e : Nat} {k : Word} (hd : charOfDigit p d = some k)
    (he : charOfDigit p e = some k) : d = e := by
  obtain ⟨h1, rfl⟩ := charOfDigit_eq_some.mp hd
  obtain ⟨h2, h⟩ := charOfDigit_eq_some.mp he
  exact congrArg Fin.val (alpha_injective hp (setWidth_code_injective h))

/-- The decoder's validation and lookup (R103 steps 1 and 2): the digit of an alphabet character. -/
theorem lookup_eq_some {p : Params} (hp : p.Valid) (k : Word) (d : Nat) :
    lookup p k = some d ↔ charOfDigit p d = some k := by
  rw [lookup]
  by_cases hk : 128 ≤ k.toNat
  · rw [if_pos hk]
    constructor
    · simp
    · intro h
      obtain ⟨h1, rfl⟩ := charOfDigit_eq_some.mp h
      have := (alpha p ⟨d, h1⟩).isLt
      simp only [BitVec.toNat_setWidth] at hk
      omega
  · rw [if_neg hk]
    have hback : (k.setWidth 7).setWidth 32 = k := by
      apply BitVec.eq_of_toNat_eq
      simp only [BitVec.toNat_setWidth]
      omega
    by_cases hm : k.setWidth 7 ∈ p.alphabet.toList
    · obtain ⟨v, hv⟩ := mem_alphabet hm
      have hi : index p (k.setWidth 7) = BitVec.ofNat 8 v.val := by rw [← hv]; exact index_alpha hp v
      have hvlt := v.isLt
      have hne : index p (k.setWidth 7) ≠ invalidEntry := by
        rw [hi]
        intro h
        have := congrArg BitVec.toNat h
        simp [invalidEntry] at this
        omega
      have hn : (BitVec.ofNat 8 v.val).toNat = v.val := by simp; omega
      rw [if_neg hne, hi, hn]
      constructor
      · intro h
        obtain rfl := Option.some.inj h
        rw [charOfDigit_lt, hv, hback]
      · intro h
        have h2 : charOfDigit p v.val = some k := by rw [charOfDigit_lt, hv, hback]
        rw [charOfDigit_injective hp h h2]
    · rw [if_pos (index_eq_invalid_of_notMem hm)]
      constructor
      · simp
      · intro h
        obtain ⟨h1, rfl⟩ := charOfDigit_eq_some.mp h
        exfalso; apply hm
        have : ((alpha p ⟨d, h1⟩).setWidth 32).setWidth 7 = alpha p ⟨d, h1⟩ := by
          apply BitVec.eq_of_toNat_eq
          have := (alpha p ⟨d, h1⟩).isLt
          simp only [BitVec.toNat_setWidth]; omega
        rw [this]; exact alpha_mem _ _

/-- The decoder rejects exactly the codes that are no alphabet character (R104). -/
theorem lookup_eq_none {p : Params} (hp : p.Valid) (k : Word) : lookup p k = none ↔ ¬ ValidChar p k := by
  constructor
  · rintro h ⟨d, -, hd⟩
    rw [← lookup_eq_some hp, h] at hd
    simp at hd
  · intro h
    cases hl : lookup p k with
    | none => rfl
    | some d =>
      exact absurd ⟨d, lt_of_charOfDigit ((lookup_eq_some hp k d).mp hl), (lookup_eq_some hp k d).mp hl⟩ h

/-- The mark is no alphabet character (R22). -/
theorem mark_not_validChar {p : Params} (hp : p.Valid) : ¬ ValidChar p (markEntry p) := by
  rintro ⟨d, hd, h⟩
  obtain ⟨h1, h⟩ := charOfDigit_eq_some.mp h
  have := setWidth_code_injective h
  exact hp.markOutside (this ▸ alpha_mem _ _)

theorem charEntry_mark (p : Params) : charEntry p.markChar = markEntry p := rfl

/-! ## Digits -/

theorem encDigits_toList (w : Word) :
    (encDigits w).toList.map Fin.val = (List.range 5).map (digitOf w.toNat) := by
  have := w.isLt
  simp only [encDigits, Quint.toList, digitOf, List.map_cons, List.map_nil, List.range, List.range.loop]
  norm_num [Nat.div_div_eq_div_mul]
  omega

theorem digitOf_lt (v q : Nat) : digitOf v q < 85 := Nat.mod_lt _ (by decide)

/-- The digits are the base-85 representation (R100). -/
theorem digitsValue_digitOf {v : Nat} (h : v < 85 ^ 5) :
    digitsValue (digitOf v 0) (digitOf v 1) (digitOf v 2) (digitOf v 3) (digitOf v 4) = v := by
  simp only [digitsValue, digitOf]
  norm_num
  norm_num at h
  omega

/-- A base-85 representation is the only one (R100, R108). -/
theorem digitOf_digitsValue {d0 d1 d2 d3 d4 : Nat} (h0 : d0 < 85) (h1 : d1 < 85) (h2 : d2 < 85) (h3 : d3 < 85)
    (h4 : d4 < 85) : (List.range 5).map (digitOf (digitsValue d0 d1 d2 d3 d4)) = [d0, d1, d2, d3, d4] := by
  simp only [digitsValue, digitOf, List.map_cons, List.map_nil, List.range, List.range.loop]
  norm_num
  omega

theorem digitsValue_le {d0 d1 d2 d3 d4 : Nat} (h0 : d0 < 85) (h1 : d1 < 85) (h2 : d2 < 85) (h3 : d3 < 85)
    (h4 : d4 < 85) : digitsValue d0 d1 d2 d3 d4 < 85 ^ 5 := by
  simp only [digitsValue]; norm_num; omega

/-- The entries of an encoded block: character `q` is that of digit `q` (R100). -/
theorem blockEntries_getElem? (p : Params) (w : Word) (q : Nat) (hq : q < 5) :
    (blockEntries p w)[q]? = charOfDigit p (digitOf w.toNat q) := by
  have hd := congrArg (fun l => l[q]?) (encDigits_toList w)
  simp only [List.getElem?_map] at hd
  rw [List.getElem?_range hq] at hd
  simp only [Option.map_some] at hd
  obtain ⟨v, hv, hvq⟩ := Option.map_eq_some_iff.mp hd
  simp only [blockEntries, encChars, Quint.toList_map, List.getElem?_map, hv, Option.map_some]
  rw [← hvq, charOfDigit_lt]; rfl

@[simp] theorem length_blockEntries (p : Params) (w : Word) : (blockEntries p w).length = 5 := rfl

/-! ## The decoder core -/

/-- The decoder core accepts five alphabet characters, and gives `acc mod 2^32` (R103, R105). -/
theorem decBlock_eq {p : Params} (hp : p.Valid) {k : Quint Word} {d0 d1 d2 d3 d4 : Nat}
    (h0 : charOfDigit p d0 = some k.c0) (h1 : charOfDigit p d1 = some k.c1) (h2 : charOfDigit p d2 = some k.c2)
    (h3 : charOfDigit p d3 = some k.c3) (h4 : charOfDigit p d4 = some k.c4) :
    decBlock p k = some (BitVec.ofNat 32 (digitsValue d0 d1 d2 d3 d4)) := by
  simp only [← lookup_eq_some hp] at h0 h1 h2 h3 h4
  simp [decBlock, Quint.map, Quint.allSome, h0, h1, h2, h3, h4, valueOf, accumulate, digitsValue]

/-- The decoder core rejects exactly when some character is none of the alphabet's (R104). -/
theorem decBlock_eq_none {p : Params} (hp : p.Valid) (k : Quint Word) :
    decBlock p k = none ↔ ∃ c ∈ k.toList, ¬ ValidChar p c := by
  simp [decBlock, Quint.allSome_eq_none, Quint.map, lookup_eq_none hp, Quint.toList]

/-! ## Byte order -/

theorem toNat_pack (b0 b1 b2 b3 : Byte) :
    (pack b0 b1 b2 b3).toNat = b0.toNat * 2 ^ 24 + b1.toNat * 2 ^ 16 + b2.toNat * 2 ^ 8 + b3.toNat := by
  have h1 := b1.isLt
  have h2 := b2.isLt
  have h3 := b3.isLt
  simp only [pack, BitVec.toNat_append]
  rw [← Nat.shiftLeft_add_eq_or_of_lt h1, ← Nat.shiftLeft_add_eq_or_of_lt h2, ← Nat.shiftLeft_add_eq_or_of_lt h3]
  simp only [Nat.shiftLeft_eq]
  omega

/-- `Bytes(V)` (R55): byte `q` of the value. -/
theorem bytesOf_getElem? (v : Word) (q : Nat) (hq : q < 4) : (bytesOf v)[q]? = some (byteOfValue v.toNat q) := by
  have hv := v.isLt
  have key : ∀ s, v.extractLsb' s 8 = BitVec.ofNat 8 (v.toNat / 2 ^ s) := by
    intro s
    apply BitVec.eq_of_toNat_eq
    simp [BitVec.extractLsb'_toNat, Nat.shiftRight_eq_div_pow]
  obtain rfl | rfl | rfl | rfl : q = 0 ∨ q = 1 ∨ q = 2 ∨ q = 3 := by omega
  all_goals simp [bytesOf, key, byteOfValue]

@[simp] theorem length_bytesOf (v : Word) : (bytesOf v).length = 4 := rfl

/-- The final truncation to 32 bits does not reach the bytes (R103 step 4). -/
theorem byteOfValue_ofNat (n q : Nat) (hq : q < 4) : byteOfValue (BitVec.ofNat 32 n).toNat q = byteOfValue n q := by
  apply BitVec.eq_of_toNat_eq
  obtain rfl | rfl | rfl | rfl : q = 0 ∨ q = 1 ∨ q = 2 ∨ q = 3 := by omega
  all_goals (simp [byteOfValue]; try omega)

/-- `Bytes` undoes `Pack` (R55). -/
theorem bytesOf_pack (b0 b1 b2 b3 : Byte) : bytesOf (pack b0 b1 b2 b3) = [b0, b1, b2, b3] := by
  have h0 := b0.isLt
  have h1 := b1.isLt
  have h2 := b2.isLt
  have h3 := b3.isLt
  apply List.ext_getElem?
  intro q
  by_cases hq : q < 4
  · rw [bytesOf_getElem? _ _ hq, toNat_pack]
    obtain rfl | rfl | rfl | rfl : q = 0 ∨ q = 1 ∨ q = 2 ∨ q = 3 := by omega
    all_goals
      simp only [byteOfValue, List.getElem?_cons_zero, List.getElem?_cons_succ]
      congr 1
      apply BitVec.eq_of_toNat_eq
      simp only [BitVec.toNat_ofNat]
      omega
  · rw [List.getElem?_eq_none (by simp; omega), List.getElem?_eq_none (by simp; omega)]

end Sys2Proof.Machine
end

