-- ==== Sys2Proof/Laws/Buffers.lean ====
section
/-! SUPPORT. The spec lemmas of the buffer commands' shared parts: what an encode emits, what a tail is, how a loop over
windows ends. -/

namespace Sys2Proof.Machine

/-! ## Encoding -/

/-- Block `j` of a byte list as a number, missing bytes 0. -/
def listBlock (bs : List Byte) (j : Nat) : Nat :=
  (bs.getD (4 * j) 0).toNat * 2 ^ 24 + (bs.getD (4 * j + 1) 0).toNat * 2 ^ 16
    + (bs.getD (4 * j + 2) 0).toNat * 2 ^ 8 + (bs.getD (4 * j + 3) 0).toNat

theorem toNat_packPadded (t : List Byte) : (packPadded t).toNat = listBlock t 0 := by
  simp [packPadded, toNat_pack, listBlock]

theorem listBlock_cons4 (b0 b1 b2 b3 : Byte) (rest : List Byte) (j : Nat) :
    listBlock (b0 :: b1 :: b2 :: b3 :: rest) (j + 1) = listBlock rest j := by
  have h0 : 4 * (j + 1) = 4 * j + 1 + 1 + 1 + 1 := by omega
  simp [listBlock, h0]

theorem encodeBytes_cons4 (p : Params) (tail : List Byte → List Word) (b0 b1 b2 b3 : Byte) (rest : List Byte) :
    encodeBytes p tail (b0 :: b1 :: b2 :: b3 :: rest)
      = blockEntries p (pack b0 b1 b2 b3) ++ encodeBytes p tail rest := by
  rw [encodeBytes]

theorem encodeBytes_short (p : Params) (tail : List Byte → List Word) (t : List Byte) (h0 : 0 < t.length)
    (h : t.length < 4) : encodeBytes p tail t = tail t := by
  match t, h0, h with
  | [a], _, _ => simp [encodeBytes]
  | [a, b], _, _ => simp [encodeBytes]
  | [a, b, c], _, _ => simp [encodeBytes]

/-- The tail left after the full blocks. -/
def listTail (bs : List Byte) : List Byte := bs.drop (4 * (bs.length / 4))

theorem listTail_cons4 (b0 b1 b2 b3 : Byte) (rest : List Byte) :
    listTail (b0 :: b1 :: b2 :: b3 :: rest) = listTail rest := by
  have : 4 * ((rest.length + 1 + 1 + 1 + 1) / 4) = 4 * (rest.length / 4) + 1 + 1 + 1 + 1 := by omega
  simp [listTail, this]

theorem length_listTail (bs : List Byte) : (listTail bs).length = bs.length % 4 := by
  simp [listTail]; omega

/-- Induction on a byte list by whole blocks and a short rest. -/
theorem blocks_induction {motive : List Byte → Prop} (short : ∀ t, t.length < 4 → motive t)
    (block : ∀ b0 b1 b2 b3 rest, motive rest → motive (b0 :: b1 :: b2 :: b3 :: rest)) : ∀ bs, motive bs
  | [] => short _ (by simp)
  | [_] => short _ (by simp)
  | [_, _] => short _ (by simp)
  | [_, _, _] => short _ (by simp)
  | b0 :: b1 :: b2 :: b3 :: rest => block b0 b1 b2 b3 rest (blocks_induction short block rest)

/-- The length of an encode's output (R163): five entries a block, and the tail's. -/
theorem length_encodeBytes (p : Params) (tail : List Byte → List Word) (bs : List Byte)
    (htail : bs.length % 4 ≠ 0 → (tail (listTail bs)).length = 5) :
    (encodeBytes p tail bs).length = 5 * ceil4 bs.length := by
  induction bs using blocks_induction with
  | short t ht =>
    rcases Nat.eq_zero_or_pos t.length with h0 | h0
    · obtain rfl := List.length_eq_zero_iff.mp h0
      simp [encodeBytes, ceil4]
    · rw [encodeBytes_short p tail t h0 ht]
      have : listTail t = t := by
        have : 4 * (t.length / 4) = 0 := by omega
        simp [listTail, this]
      rw [this] at htail
      rw [htail (by omega)]
      simp only [ceil4]; omega
  | block b0 b1 b2 b3 rest ih =>
    rw [listTail_cons4] at htail
    have := ih (fun h => htail (by simp only [List.length_cons]; omega))
    rw [encodeBytes_cons4, List.length_append, this, length_blockEntries]
    simp only [List.length_cons, ceil4]; omega

/-- The entries of an encode's output (R140-R142): characters of full blocks, then those of the tail. -/
theorem encodeBytes_getElem? (p : Params) (tail : List Byte → List Word) (bs : List Byte) (i : Nat) :
    (encodeBytes p tail bs)[i]? =
      if i / 5 < bs.length / 4 then charOfDigit p (digitOf (listBlock bs (i / 5)) (i % 5))
      else if bs.length % 4 = 0 then none
      else (tail (listTail bs))[i - 5 * (bs.length / 4)]? := by
  induction bs using blocks_induction generalizing i with
  | short t ht =>
    have h4 : t.length / 4 = 0 := by omega
    rcases Nat.eq_zero_or_pos t.length with h0 | h0
    · obtain rfl := List.length_eq_zero_iff.mp h0
      simp [encodeBytes]
    · have : listTail t = t := by simp [listTail, h4]
      rw [encodeBytes_short p tail t h0 ht, this, h4]
      have : ¬ t.length % 4 = 0 := by omega
      simp [this]
  | block b0 b1 b2 b3 rest ih =>
    rw [encodeBytes_cons4, listTail_cons4]
    have hl : (b0 :: b1 :: b2 :: b3 :: rest).length = rest.length + 4 := by simp
    rw [hl]
    by_cases hi : i < 5
    · have h1 : i / 5 = 0 := by omega
      have h2 : i % 5 = i := by omega
      rw [List.getElem?_append_left (by simpa using hi), blockEntries_getElem? _ _ _ hi, toNat_pack, h1, h2,
        if_pos (by omega)]
      rfl
    · have h1 : i / 5 = (i - 5) / 5 + 1 := by omega
      have h2 : i % 5 = (i - 5) % 5 := by omega
      rw [List.getElem?_append_right (by simp; omega), length_blockEntries, ih, h1, h2, listBlock_cons4]
      have h3 : (rest.length + 4) / 4 = rest.length / 4 + 1 := by omega
      have h4 : (rest.length + 4) % 4 = rest.length % 4 := by omega
      have h5 : i - 5 - 5 * (rest.length / 4) = i - 5 * (rest.length / 4 + 1) := by omega
      rw [h3, h4, h5]
      simp only [Nat.add_lt_add_iff_right]

/-- The last, short block of a byte list is its tail. -/
theorem listBlock_listTail (bs : List Byte) : listBlock (listTail bs) 0 = listBlock bs (bs.length / 4) := by
  simp [listBlock, listTail, List.getD_eq_getElem?_getD, List.getElem?_drop, Nat.add_comm]

theorem length_encTail (p : Params) (t : List Byte) (h : t.length < 4) : (encTail p t).length = 5 := by
  simp [encTail]; omega

@[simp] theorem length_padTail (p : Params) (t : List Byte) : (padTail p t).length = 5 := rfl

/-- The Default tail (R131): `r + 1` characters of the zero-padded block, then marks. -/
theorem encTail_getElem? (p : Params) (t : List Byte) (ht : t.length < 4) (q : Nat) (hq : q < 5) :
    (encTail p t)[q]? =
      if q ≤ t.length then charOfDigit p (digitOf (listBlock t 0) q) else some (markEntry p) := by
  rw [encTail]
  split
  · next h =>
    rw [List.getElem?_append_left (by simp; omega), List.getElem?_take_of_lt (by omega),
      blockEntries_getElem? _ _ _ hq, toNat_packPadded]
  · next h =>
    rw [List.getElem?_append_right (by simp; omega), charEntry_mark]
    rw [List.getElem?_replicate_of_lt]
    simp; omega

/-- The Padded tail (R142). -/
theorem padTail_getElem? (p : Params) (t : List Byte) (q : Nat) (hq : q < 5) :
    (padTail p t)[q]? = charOfDigit p (digitOf (listBlock t 0) q) := by
  rw [padTail, blockEntries_getElem? _ _ _ hq, toNat_packPadded]

/-! ## Loops over windows -/

/-- What the loop makes of window `i` of `k`: the last window's decoder or the other one. -/
def windowDecoder (full last : Quint Word → Option (List Byte)) (k i : Nat) : Quint Word → Option (List Byte) :=
  if i + 1 = k then last else full

/-- The loop gives an output exactly when every window is written and decodes, and it is theirs in order. -/
theorem decodeWindows_eq_output (window : Nat → Option (Quint Word)) (full last : Quint Word → Option (List Byte))
    (k j : Nat) (out : List Byte) :
    decodeWindows window full last k j = .output out ↔
      ∃ f : Nat → List Byte,
        (∀ i, i < k → ∃ t, window (j + i) = some t ∧ windowDecoder full last k i t = some (f i)) ∧
          out = (List.range k).flatMap f := by
  induction k generalizing j out with
  | zero => simp [decodeWindows, eq_comm]
  | succ k ih =>
    rw [decodeWindows]
    have hdec : ∀ t, (if k = 0 then last t else full t) = windowDecoder full last (k + 1) 0 t := by
      intro t; simp only [windowDecoder]; split <;> split <;> first | rfl | omega
    have hstep : ∀ i, windowDecoder full last (k + 1) (i + 1) = windowDecoder full last k i := by
      intro i; simp [windowDecoder]
    cases hw : window j with
    | none =>
      simp only [reduceCtorEq, false_iff, not_exists, not_and]
      intro f hf
      obtain ⟨t, ht, -⟩ := hf 0 (by omega)
      simp [hw] at ht
    | some t =>
      simp only [hdec]
      cases hd : windowDecoder full last (k + 1) 0 t with
      | none =>
        simp only [reduceCtorEq, false_iff, not_exists, not_and]
        intro f hf
        obtain ⟨t', ht', hf'⟩ := hf 0 (by omega)
        simp only [Nat.add_zero, hw, Option.some.injEq] at ht'
        subst ht'; rw [hd] at hf'; simp at hf'
      | some bs =>
        have hpre : (decodeWindows window full last k (j + 1)).prepend bs = .output out ↔
            ∃ out', decodeWindows window full last k (j + 1) = .output out' ∧ out = bs ++ out' := by
          cases decodeWindows window full last k (j + 1) <;> simp [DecodeRun.prepend, eq_comm]
        simp only [hpre, ih]
        constructor
        · rintro ⟨out', ⟨f, hf, rfl⟩, rfl⟩
          refine ⟨fun i => if i = 0 then bs else f (i - 1), ?_, ?_⟩
          · intro i hi
            cases i with
            | zero => exact ⟨t, hw, by simpa using hd⟩
            | succ i =>
              obtain ⟨t', ht', hf'⟩ := hf i (by omega)
              refine ⟨t', by rw [← ht']; congr 1; omega, by simpa [hstep] using hf'⟩
          · simp [List.range_succ_eq_map, List.flatMap_map]
        · rintro ⟨f, hf, rfl⟩
          have h0 := hf 0 (by omega)
          obtain ⟨t', ht', hf'⟩ := h0
          simp only [Nat.add_zero, hw, Option.some.injEq] at ht'
          subst ht'; rw [hd] at hf'; obtain rfl := Option.some.inj hf'
          refine ⟨_, ⟨fun i => f (i + 1), ?_, rfl⟩, ?_⟩
          · intro i hi
            obtain ⟨t', ht', hf'⟩ := hf (i + 1) (by omega)
            exact ⟨t', by rw [← ht']; congr 1; omega, by rw [← hstep]; exact hf'⟩
          · simp [List.range_succ_eq_map, List.flatMap_map]

/-- The windows before `i` are written and decode. -/
def WindowsDecode (window : Nat → Option (Quint Word)) (full last : Quint Word → Option (List Byte)) (k j i : Nat) :
    Prop := ∀ h, h < i → ∃ t bs, window (j + h) = some t ∧ windowDecoder full last k h t = some bs

/-- One step of the loop, in the terms of the lemmas on how it ends. -/
theorem decodeWindows_succ (window : Nat → Option (Quint Word)) (full last : Quint Word → Option (List Byte))
    (k j : Nat) :
    decodeWindows window full last (k + 1) j =
      match window j with
      | none => .unwritten
      | some t =>
        match windowDecoder full last (k + 1) 0 t with
        | none => .badChar j
        | some bs => (decodeWindows window full last k (j + 1)).prepend bs := by
  have hdec : ∀ t, (if k = 0 then last t else full t) = windowDecoder full last (k + 1) 0 t := by
    intro t; simp only [windowDecoder]; split <;> split <;> first | rfl | omega
  rw [decodeWindows]; simp only [hdec]; try rfl

theorem windowsDecode_succ (window : Nat → Option (Quint Word)) (full last : Quint Word → Option (List Byte))
    (k j i : Nat) :
    WindowsDecode window full last (k + 1) j (i + 1) ↔
      (∃ t bs, window j = some t ∧ windowDecoder full last (k + 1) 0 t = some bs) ∧
        WindowsDecode window full last k (j + 1) i := by
  have hstep : ∀ i, windowDecoder full last (k + 1) (i + 1) = windowDecoder full last k i := by
    intro i; simp [windowDecoder]
  constructor
  · intro h
    refine ⟨by simpa using h 0 (by omega), ?_⟩
    intro g hg
    obtain ⟨t, bs, ht, hb⟩ := h (g + 1) (by omega)
    exact ⟨t, bs, by rw [← ht]; congr 1; omega, by rw [← hstep]; exact hb⟩
  · rintro ⟨h0, h⟩ g hg
    cases g with
    | zero => simpa using h0
    | succ g =>
      obtain ⟨t, bs, ht, hb⟩ := h g (by omega)
      exact ⟨t, bs, by rw [← ht]; congr 1; omega, by rw [hstep]; exact hb⟩

/-- The loop reports the lowest window that fails, when every window before it is written and decodes (R173). -/
theorem decodeWindows_eq_badChar (window : Nat → Option (Quint Word)) (full last : Quint Word → Option (List Byte))
    (k j w : Nat) :
    decodeWindows window full last k j = .badChar w ↔
      ∃ i, i < k ∧ w = j + i ∧ WindowsDecode window full last k j i ∧
        ∃ t, window (j + i) = some t ∧ windowDecoder full last k i t = none := by
  induction k generalizing j with
  | zero => simp [decodeWindows]
  | succ k ih =>
    have hstep : ∀ i, windowDecoder full last (k + 1) (i + 1) = windowDecoder full last k i := by
      intro i; simp [windowDecoder]
    rw [decodeWindows_succ]
    cases hw : window j with
    | none =>
      simp only [reduceCtorEq, false_iff]
      rintro ⟨i, hi, rfl, hpre, t, ht, hb⟩
      cases i with
      | zero => simp [hw] at ht
      | succ i => obtain ⟨⟨t', bs, ht', -⟩, -⟩ := (windowsDecode_succ _ _ _ _ _ _).mp hpre; simp [hw] at ht'
    | some t =>
      dsimp only
      cases hd : windowDecoder full last (k + 1) 0 t with
      | none =>
        simp only [DecodeRun.badChar.injEq]
        constructor
        · rintro rfl
          exact ⟨0, by omega, by omega, fun h hh => by omega, t, hw, hd⟩
        · rintro ⟨i, hi, rfl, hpre, t', ht', hb⟩
          cases i with
          | zero => omega
          | succ i =>
            obtain ⟨⟨t'', bs, ht'', hb''⟩, -⟩ := (windowsDecode_succ _ _ _ _ _ _).mp hpre
            rw [hw] at ht''; obtain rfl := Option.some.inj ht''
            rw [hd] at hb''; simp at hb''
      | some bs =>
        have hpre : (decodeWindows window full last k (j + 1)).prepend bs = .badChar w ↔
            decodeWindows window full last k (j + 1) = .badChar w := by
          cases decodeWindows window full last k (j + 1) <;> simp [DecodeRun.prepend]
        simp only [hpre, ih]
        constructor
        · rintro ⟨i, hi, rfl, hp, t', ht', hb⟩
          exact ⟨i + 1, by omega, by omega, (windowsDecode_succ _ _ _ _ _ _).mpr ⟨⟨t, bs, hw, hd⟩, hp⟩, t',
            by rw [← ht']; congr 1; omega, by rw [hstep]; exact hb⟩
        · rintro ⟨i, hi, rfl, hp, t', ht', hb⟩
          cases i with
          | zero =>
            simp only [Nat.add_zero, hw, Option.some.injEq] at ht'
            subst ht'; rw [hd] at hb; simp at hb
          | succ i =>
            exact ⟨i, by omega, by omega, ((windowsDecode_succ _ _ _ _ _ _).mp hp).2, t',
              by rw [← ht']; congr 1; omega, by rw [← hstep]; exact hb⟩

/-- The loop faults exactly when it reaches a window with an entry never written, every window before it having
decoded. -/
theorem decodeWindows_eq_unwritten (window : Nat → Option (Quint Word)) (full last : Quint Word → Option (List Byte))
    (k j : Nat) :
    decodeWindows window full last k j = .unwritten ↔
      ∃ i, i < k ∧ WindowsDecode window full last k j i ∧ window (j + i) = none := by
  induction k generalizing j with
  | zero => simp [decodeWindows]
  | succ k ih =>
    rw [decodeWindows_succ]
    cases hw : window j with
    | none => simp only [true_iff]; exact ⟨0, by omega, fun h hh => by omega, hw⟩
    | some t =>
      dsimp only
      cases hd : windowDecoder full last (k + 1) 0 t with
      | none =>
        simp only [reduceCtorEq, false_iff]
        rintro ⟨i, hi, hpre, hn⟩
        cases i with
        | zero => simp [hw] at hn
        | succ i =>
          obtain ⟨⟨t'', bs, ht'', hb''⟩, -⟩ := (windowsDecode_succ _ _ _ _ _ _).mp hpre
          rw [hw] at ht''; obtain rfl := Option.some.inj ht''
          rw [hd] at hb''; simp at hb''
      | some bs =>
        have hpre : (decodeWindows window full last k (j + 1)).prepend bs = .unwritten ↔
            decodeWindows window full last k (j + 1) = .unwritten := by
          cases decodeWindows window full last k (j + 1) <;> simp [DecodeRun.prepend]
        simp only [hpre, ih]
        constructor
        · rintro ⟨i, hi, hp, hn⟩
          exact ⟨i + 1, by omega, (windowsDecode_succ _ _ _ _ _ _).mpr ⟨⟨t, bs, hw, hd⟩, hp⟩,
            by rw [← hn]; congr 1; omega⟩
        · rintro ⟨i, hi, hp, hn⟩
          cases i with
          | zero => simp [hw] at hn
          | succ i =>
            exact ⟨i, by omega, ((windowsDecode_succ _ _ _ _ _ _).mp hp).2, by rw [← hn]; congr 1; omega⟩

/-- Windows of four bytes each, and a last one of any length: byte `i` of their concatenation. -/
theorem flatMap_fours_getElem? (f : Nat → List Byte) (k : Nat) (hf : ∀ i, i + 1 < k → (f i).length = 4)
    (hl : ∀ i, i < k → (f i).length ≤ 4) (i : Nat) :
    ((List.range k).flatMap f)[i]? = if i / 4 < k then (f (i / 4))[i % 4]? else none := by
  induction k generalizing f i with
  | zero => simp
  | succ k ih =>
    rw [List.range_succ_eq_map, List.flatMap_cons, List.flatMap_map]
    rcases Nat.eq_zero_or_pos k with rfl | hk
    · have h0 := hl 0 (by omega)
      simp only [List.range_zero, List.flatMap_nil, List.append_nil]
      split
      · next h => rw [show i / 4 = 0 by omega, show i % 4 = i by omega]
      · next h => rw [List.getElem?_eq_none]; omega
    · have h0 : (f 0).length = 4 := hf 0 (by omega)
      by_cases hi : i < 4
      · rw [List.getElem?_append_left (by omega), show i / 4 = 0 by omega, show i % 4 = i by omega,
          if_pos (by omega)]
      · rw [List.getElem?_append_right (by omega), h0,
          ih (fun i => f (i + 1)) (fun i hh => hf _ (by omega)) (fun i hh => hl _ (by omega)) (i - 4)]
        simp only [show (i - 4) / 4 + 1 = i / 4 by omega, show (i - 4) % 4 = i % 4 by omega]
        split <;> split <;> first | rfl | omega

/-- The length of that concatenation. -/
theorem length_flatMap_fours (f : Nat → List Byte) (k : Nat) (hf : ∀ i, i + 1 < k + 1 → (f i).length = 4) :
    ((List.range (k + 1)).flatMap f).length = 4 * k + (f k).length := by
  induction k generalizing f with
  | zero => simp
  | succ k ih =>
    rw [List.range_succ_eq_map, List.flatMap_cons, List.flatMap_map, List.length_append, hf 0 (by omega),
      ih (fun i => f (i + 1)) (fun i hi => hf (i + 1) (by omega))]
    omega

/-! ## Windows and tails -/

/-- A window is read when its five entries are written (R130). -/
theorem windowAt_eq_some (m : Memory 32) (j : Nat) (t : Quint Word) :
    windowAt m j = some t ↔ ∀ q, q < 5 → m.read (5 * j + q) = t.toList[q]? := by
  rw [windowAt, Quint.allSome_eq_some]
  constructor
  · rintro ⟨h0, h1, h2, h3, h4⟩ q hq
    obtain rfl | rfl | rfl | rfl | rfl : q = 0 ∨ q = 1 ∨ q = 2 ∨ q = 3 ∨ q = 4 := by omega
    all_goals simpa [Quint.toList]
  · intro h
    have h0 := h 0
    have h1 := h 1
    have h2 := h 2
    have h3 := h 3
    have h4 := h 4
    simp [Quint.toList] at h0 h1 h2 h3 h4
    exact ⟨h0, h1, h2, h3, h4⟩

theorem windowAt_eq_none (m : Memory 32) (j : Nat) :
    windowAt m j = none ↔ ∃ q, q < 5 ∧ m.read (5 * j + q) = none := by
  rw [windowAt, Quint.allSome_eq_none]
  constructor
  · rintro (h | h | h | h | h)
    exacts [⟨0, by omega, h⟩, ⟨1, by omega, h⟩, ⟨2, by omega, h⟩, ⟨3, by omega, h⟩, ⟨4, by omega, h⟩]
  · rintro ⟨q, hq, h⟩
    obtain rfl | rfl | rfl | rfl | rfl : q = 0 ∨ q = 1 ∨ q = 2 ∨ q = 3 ∨ q = 4 := by omega
    all_goals simp_all

theorem windowOf_eq_some (s : List Word) (j : Nat) (t : Quint Word) :
    windowOf s j = some t ↔ ∀ q, q < 5 → s[5 * j + q]? = t.toList[q]? := by
  rw [windowOf, Quint.allSome_eq_some]
  constructor
  · rintro ⟨h0, h1, h2, h3, h4⟩ q hq
    obtain rfl | rfl | rfl | rfl | rfl : q = 0 ∨ q = 1 ∨ q = 2 ∨ q = 3 ∨ q = 4 := by omega
    all_goals simpa [Quint.toList]
  · intro h
    have h0 := h 0
    have h1 := h 1
    have h2 := h 2
    have h3 := h 3
    have h4 := h 4
    simp [Quint.toList] at h0 h1 h2 h3 h4
    exact ⟨h0, h1, h2, h3, h4⟩

/-- The mark count (R133): the last `m` entries hold the mark and the one before them does not. -/
theorem markCount_eq (p : Params) (t : Quint Word) (m : Nat) :
    markCount p t = m ↔
      m ≤ 5 ∧ (∀ q, 5 - m ≤ q → q < 5 → t.toList[q]? = some (markEntry p)) ∧
        (m < 5 → t.toList[4 - m]? ≠ some (markEntry p)) := by
  obtain ⟨a, b, c, d, e⟩ := t
  have key : markCount p ⟨a, b, c, d, e⟩ =
      if e = markEntry p then if d = markEntry p then if c = markEntry p then if b = markEntry p then
        if a = markEntry p then 5 else 4 else 3 else 2 else 1 else 0 := by
    simp only [markCount, Quint.toList, charEntry_mark]
    by_cases he : e = markEntry p <;> by_cases hd : d = markEntry p <;> by_cases hc : c = markEntry p <;>
      by_cases hb : b = markEntry p <;> by_cases ha : a = markEntry p <;>
      simp [he, hd, hc, hb, ha]
  rw [key]
  constructor
  · rintro rfl
    split_ifs
    all_goals
      refine ⟨by omega, ?_, ?_⟩
      · intro q h1 h2
        obtain rfl | rfl | rfl | rfl | rfl : q = 0 ∨ q = 1 ∨ q = 2 ∨ q = 3 ∨ q = 4 := by omega
        all_goals first | omega | simpa [Quint.toList]
      · simp_all [Quint.toList]
  · rintro ⟨hm, hq, hn⟩
    have h4 : 5 - m ≤ 4 → e = markEntry p := fun h => by simpa [Quint.toList] using hq 4 h (by omega)
    have h3 : 5 - m ≤ 3 → d = markEntry p := fun h => by simpa [Quint.toList] using hq 3 h (by omega)
    have h2 : 5 - m ≤ 2 → c = markEntry p := fun h => by simpa [Quint.toList] using hq 2 h (by omega)
    have h1 : 5 - m ≤ 1 → b = markEntry p := fun h => by simpa [Quint.toList] using hq 1 h (by omega)
    have h0 : 5 - m ≤ 0 → a = markEntry p := fun h => by simpa [Quint.toList] using hq 0 h (by omega)
    clear hq key
    obtain rfl | rfl | rfl | rfl | rfl | rfl : m = 0 ∨ m = 1 ∨ m = 2 ∨ m = 3 ∨ m = 4 ∨ m = 5 := by omega
    all_goals simp_all [Quint.toList]

end Sys2Proof.Machine
end

