-- ==== Sys2Proof/Laws/Commands.lean ====
section
/-! SUPPORT. One inversion lemma per command: if it answers a next state, then one of these cases holds. The provers cite
these instead of unfolding a meaning. -/

namespace Sys2Proof.Machine

/-! ## The shared parts -/

/-- An encode whose checks have passed answers exactly when its input is written, with the commit of its output. -/
theorem encodeBuffer_eq_next (s t : State) (tail : List Byte → List Word) :
    encodeBuffer s tail = .next t ↔
      ∃ bs, s.byteBuf.readRange 0 s.inLen.toNat = some bs ∧ t = commitChars s (encodeBytes s.params tail bs) := by
  unfold encodeBuffer
  cases s.byteBuf.readRange 0 s.inLen.toNat <;> simp [eq_comm]

/-- It faults exactly when an entry of its input was never written (R193, I3). -/
theorem encodeBuffer_eq_fault (s : State) (tail : List Byte → List Word) :
    encodeBuffer s tail = .fault (.unwrittenEntry .byteBuf) ↔
      ∃ k, k < s.inLen.toNat ∧ s.byteBuf.read k = none := by
  unfold encodeBuffer
  have := Memory.readRange_eq_none s.byteBuf 0 s.inLen.toNat
  simp only [Nat.zero_add] at this
  rw [← this]
  cases s.byteBuf.readRange 0 s.inLen.toNat <;> simp

/-- A decode whose loop has ended answers with the commit of the output or with INVALID_CHARACTER. -/
theorem finishDecode_eq_next (s t : State) (r : DecodeRun) :
    finishDecode s r = .next t ↔
      (∃ out, r = .output out ∧ t = commitBytes s out) ∨
        (∃ j, r = .badChar j ∧ t = raiseBufferErr s .invalidCharacter j) := by
  cases r <;> simp [finishDecode, eq_comm]

/-! ## The block commands -/

theorem execEnc4_eq (s : State) :
    execEnc4 s = .next (succeed { s with chrOut := (encChars s.params s.dataIn).map (fun c => c.setWidth 8) }) := rfl

theorem execDec5_next {s t : State} (h : execDec5 s = .next t) :
    (decBlock s.params s.chrIn = none ∧ t = raiseErr s .invalidCharacter 0) ∨
      (∃ v, decBlock s.params s.chrIn = some v ∧ t = succeed { s with dataOut := v }) := by
  unfold execDec5 at h
  cases hd : decBlock s.params s.chrIn <;> simp only [hd, Host.Outcome.next.injEq] at h <;> simp [h]

theorem execRdalpha_next {s t : State} {a : Code} (h : execRdalpha a s = .next t) :
    (∃ ha : a.toNat < 85,
        t = succeed { s with chrOut := { s.chrOut with c0 := (alpha s.params ⟨a.toNat, ha⟩).setWidth 8 } }) ∨
      (85 ≤ a.toNat ∧ t = raiseErr s .illegalCommand 0) := by
  unfold execRdalpha at h
  split at h
  · next ha => left; exact ⟨ha, (Host.Outcome.next.inj h).symm⟩
  · next ha => right; exact ⟨by omega, (Host.Outcome.next.inj h).symm⟩

/-! ## The encode commands -/

/-- How an encode that answers has ended: by its capacity check, or with the output of its written input. -/
theorem execEncodeDefault_next {s t : State} (h : execEncodeDefault s = .next t) :
    t = raiseBufferErr s .capacityExceeded 0 ∨
      (s.inLen.toNat ≤ s.params.bufCap ∧ 5 * ceil4 s.inLen.toNat ≤ s.params.bufCap ∧
        ∃ bs, s.byteBuf.readRange 0 s.inLen.toNat = some bs ∧
          t = commitChars s (encodeBytes s.params (encTail s.params) bs)) := by
  unfold execEncodeDefault at h
  split at h
  · left; exact (Host.Outcome.next.inj h).symm
  split at h
  · left; exact (Host.Outcome.next.inj h).symm
  · right; exact ⟨by omega, by omega, (encodeBuffer_eq_next _ _ _).mp h⟩

theorem execEncodePadded_next {s t : State} (h : execEncodePadded s = .next t) :
    t = raiseBufferErr s .capacityExceeded 0 ∨
      (s.inLen.toNat ≤ s.params.bufCap ∧ 5 * ceil4 s.inLen.toNat ≤ s.params.bufCap ∧
        ∃ bs, s.byteBuf.readRange 0 s.inLen.toNat = some bs ∧
          t = commitChars s (encodeBytes s.params (padTail s.params) bs)) := by
  unfold execEncodePadded at h
  split at h
  · left; exact (Host.Outcome.next.inj h).symm
  split at h
  · left; exact (Host.Outcome.next.inj h).symm
  · right; exact ⟨by omega, by omega, (encodeBuffer_eq_next _ _ _).mp h⟩

theorem execEncodeStrict_next {s t : State} (h : execEncodeStrict s = .next t) :
    t = raiseBufferErr s .capacityExceeded 0 ∨
      (s.inLen.toNat % 4 ≠ 0 ∧ t = raiseBufferErr s .invalidLength 0) ∨
      (s.inLen.toNat ≤ s.params.bufCap ∧ s.inLen.toNat % 4 = 0 ∧ 5 * (s.inLen.toNat / 4) ≤ s.params.bufCap ∧
        ∃ bs, s.byteBuf.readRange 0 s.inLen.toNat = some bs ∧
          t = commitChars s (encodeBytes s.params (fun _ => []) bs)) := by
  unfold execEncodeStrict at h
  split at h
  · left; exact (Host.Outcome.next.inj h).symm
  split at h
  · next hl => right; left; exact ⟨hl, (Host.Outcome.next.inj h).symm⟩
  split at h
  · left; exact (Host.Outcome.next.inj h).symm
  · right; right; exact ⟨by omega, by omega, by omega, (encodeBuffer_eq_next _ _ _).mp h⟩

/-! ## The decode commands -/

/-- How a decode of whole windows that answers has ended: by a check, by its lowest failing window, or with its output. -/
theorem execDecodeStrict_next {s t : State} (h : execDecodeStrict s = .next t) :
    t = raiseBufferErr s .capacityExceeded 0 ∨
      (s.inLen.toNat % 5 ≠ 0 ∧ t = raiseBufferErr s .invalidLength 0) ∨
      (s.inLen.toNat ≤ s.params.bufCap ∧ s.inLen.toNat % 5 = 0 ∧
        ((∃ out, decodeWindows (windowAt s.charBuf) (decWindow s.params) (decWindow s.params) (s.inLen.toNat / 5) 0
            = .output out ∧ t = commitBytes s out) ∨
          (∃ j, decodeWindows (windowAt s.charBuf) (decWindow s.params) (decWindow s.params) (s.inLen.toNat / 5) 0
            = .badChar j ∧ t = raiseBufferErr s .invalidCharacter j))) := by
  unfold execDecodeStrict at h
  split at h
  · left; exact (Host.Outcome.next.inj h).symm
  split at h
  · next hl => right; left; exact ⟨hl, (Host.Outcome.next.inj h).symm⟩
  · right; right; exact ⟨by omega, by omega, (finishDecode_eq_next _ _ _).mp h⟩

theorem execDecodeDefault_next {s t : State} (h : execDecodeDefault s = .next t) :
    t = raiseBufferErr s .capacityExceeded 0 ∨
      (s.inLen.toNat % 5 ≠ 0 ∧ t = raiseBufferErr s .invalidLength 0) ∨
      (s.inLen.toNat ≤ s.params.bufCap ∧ s.inLen.toNat % 5 = 0 ∧
        ((∃ out, decodeWindows (windowAt s.charBuf) (decWindow s.params) (decTail s.params) (s.inLen.toNat / 5) 0
            = .output out ∧ t = commitBytes s out) ∨
          (∃ j, decodeWindows (windowAt s.charBuf) (decWindow s.params) (decTail s.params) (s.inLen.toNat / 5) 0
            = .badChar j ∧ t = raiseBufferErr s .invalidCharacter j))) := by
  unfold execDecodeDefault at h
  split at h
  · left; exact (Host.Outcome.next.inj h).symm
  split at h
  · next hl => right; left; exact ⟨hl, (Host.Outcome.next.inj h).symm⟩
  · right; right; exact ⟨by omega, by omega, (finishDecode_eq_next _ _ _).mp h⟩

theorem execDecodePadded_next {s t : State} (h : execDecodePadded s = .next t) :
    t = raiseBufferErr s .capacityExceeded 0 ∨
      (s.inLen.toNat ≤ s.params.bufCap ∧ 4 * ceil5 s.inLen.toNat ≤ s.params.bufCap ∧
        ∃ cs, s.charBuf.readRange 0 s.inLen.toNat = some cs ∧
          ((∃ out, decodeWindows (windowOf (cs ++ padding s.params s.inLen.toNat)) (decWindow s.params)
              (decWindow s.params) (ceil5 s.inLen.toNat) 0 = .output out ∧ t = commitBytes s out) ∨
            (∃ j, decodeWindows (windowOf (cs ++ padding s.params s.inLen.toNat)) (decWindow s.params)
              (decWindow s.params) (ceil5 s.inLen.toNat) 0 = .badChar j ∧
                t = raiseBufferErr s .invalidCharacter j))) := by
  unfold execDecodePadded at h
  split at h
  · left; exact (Host.Outcome.next.inj h).symm
  split at h
  · left; exact (Host.Outcome.next.inj h).symm
  · right
    refine ⟨by omega, by omega, ?_⟩
    cases hr : s.charBuf.readRange 0 s.inLen.toNat with
    | none => simp [hr] at h
    | some cs => simp only [hr] at h; exact ⟨cs, rfl, (finishDecode_eq_next _ _ _).mp h⟩

/-! ## Lengths -/

/-- A window's decoder gives at most four bytes. -/
theorem length_decWindow {p : Params} {t : Quint Word} {bs : List Byte} (h : decWindow p t = some bs) :
    bs.length = 4 := by
  obtain ⟨v, -, rfl⟩ := Option.map_eq_some_iff.mp h
  simp

/-- The Default tail gives `4 - m` bytes for its `m` marks, at most 3 (R134). -/
theorem length_decTail {p : Params} {t : Quint Word} {bs : List Byte} (h : decTail p t = some bs) :
    bs.length = 4 - markCount p t ∧ markCount p t ≤ 3 := by
  unfold decTail at h
  split at h
  · next hm => rw [length_decWindow h, hm]; simp
  split at h
  · simp at h
  · next hm =>
    obtain ⟨v, -, rfl⟩ := Option.map_eq_some_iff.mp h
    simp; omega

/-- Every window's decoder gives at most four bytes, and one that is not the last exactly four. -/
theorem length_windowDecoder {p : Params} {last : Quint Word → Option (List Byte)}
    (hl : ∀ t bs, last t = some bs → bs.length ≤ 4) {k i : Nat} {t : Quint Word} {bs : List Byte}
    (h : windowDecoder (decWindow p) last k i t = some bs) :
    bs.length ≤ 4 ∧ (i + 1 ≠ k → bs.length = 4) := by
  unfold windowDecoder at h
  split at h
  · next he => exact ⟨hl _ _ h, fun hn => absurd he hn⟩
  · have := length_decWindow h; exact ⟨by omega, fun _ => this⟩

/-- A loop's output is no longer than four bytes a window. -/
theorem length_decodeWindows_le {p : Params} {last : Quint Word → Option (List Byte)}
    (hl : ∀ t bs, last t = some bs → bs.length ≤ 4) {window : Nat → Option (Quint Word)} {k j : Nat}
    {out : List Byte} (h : decodeWindows window (decWindow p) last k j = .output out) : out.length ≤ 4 * k := by
  obtain ⟨f, hf, rfl⟩ := (decodeWindows_eq_output _ _ _ _ _ _).mp h
  cases k with
  | zero => simp
  | succ k =>
    rw [length_flatMap_fours]
    · obtain ⟨t, -, ht⟩ := hf k (by omega)
      have := (length_windowDecoder hl ht).1
      omega
    · intro i hi
      obtain ⟨t, -, ht⟩ := hf i (by omega)
      exact (length_windowDecoder hl ht).2 (by omega)

/-- With the full decoder for the last window too, exactly four bytes a window. -/
theorem length_decodeWindows_full {p : Params} {window : Nat → Option (Quint Word)} {k j : Nat} {out : List Byte}
    (h : decodeWindows window (decWindow p) (decWindow p) k j = .output out) : out.length = 4 * k := by
  obtain ⟨f, hf, rfl⟩ := (decodeWindows_eq_output _ _ _ _ _ _).mp h
  have h4 : ∀ i, i < k → (f i).length = 4 := by
    intro i hi
    obtain ⟨t, -, ht⟩ := hf i hi
    unfold windowDecoder at ht
    split at ht <;> exact length_decWindow ht
  cases k with
  | zero => simp
  | succ k => rw [length_flatMap_fours _ _ (fun i hi => h4 i (by omega)), h4 k (by omega)]; omega

/-- The numeric input block is the list block of the bytes read. -/
theorem inputBlock_eq {s : State} {bs : List Byte} (h : s.byteBuf.readRange 0 s.inLen.toNat = some bs) (j : Nat) :
    inputBlock s j = listBlock bs j := by
  obtain ⟨hl, hk⟩ := (Memory.readRange_eq_some _ _ _ _).mp h
  have key : ∀ i, inputByte s i = (bs.getD i 0).toNat := by
    intro i
    unfold inputByte
    split
    · next hi =>
      have := hk i hi
      rw [Nat.zero_add] at this
      rw [this, List.getD_eq_getElem?_getD]
    · next hi =>
      rw [List.getD_eq_getElem?_getD, List.getElem?_eq_none (by omega)]
      rfl
  simp [inputBlock, listBlock, key]

/-- An input is written exactly when it can be read. -/
theorem readRange_of_bytesWritten {s : State} (h : BytesWritten s) :
    ∃ bs, s.byteBuf.readRange 0 s.inLen.toNat = some bs := by
  cases hr : s.byteBuf.readRange 0 s.inLen.toNat with
  | some bs => exact ⟨bs, rfl⟩
  | none =>
    obtain ⟨k, hk, hn⟩ := (Memory.readRange_eq_none _ _ _).mp hr
    exact absurd (by simpa using hn) (h k hk)

theorem readRange_of_charsWritten {s : State} (h : CharsWritten s) :
    ∃ cs, s.charBuf.readRange 0 s.inLen.toNat = some cs := by
  cases hr : s.charBuf.readRange 0 s.inLen.toNat with
  | some cs => exact ⟨cs, rfl⟩
  | none =>
    obtain ⟨k, hk, hn⟩ := (Memory.readRange_eq_none _ _ _).mp hr
    exact absurd (by simpa using hn) (h k hk)

end Sys2Proof.Machine
end

