-- ==== Sys2Proof/Laws/Decode.lean ====
section
/-! SUPPORT. The command word as a number: its fields, and the decoder as a case split on quotients and remainders. -/

namespace Sys2Proof

theorem toNat_opField (w : Word) : (opField w).toNat = w.toNat % 16 := by
  simp [opField]

theorem toNat_varField (w : Word) : (varField w).toNat = w.toNat / 16 % 4 := by
  simp [varField, BitVec.extractLsb'_toNat, Nat.shiftRight_eq_div_pow]

theorem toNat_res0Field (w : Word) : (res0Field w).toNat = w.toNat / 64 % 4 := by
  simp [res0Field, BitVec.extractLsb'_toNat, Nat.shiftRight_eq_div_pow]

theorem toNat_aidxField (w : Word) : (aidxField w).toNat = w.toNat / 256 % 128 := by
  simp [aidxField, BitVec.extractLsb'_toNat, Nat.shiftRight_eq_div_pow]

theorem toNat_res1Field (w : Word) : (res1Field w).toNat = w.toNat / 32768 := by
  have := w.isLt
  simp [res1Field, BitVec.extractLsb'_toNat, Nat.shiftRight_eq_div_pow]
  omega

theorem opField_eq_iff (w : Word) (k : BitVec 4) : opField w = k ↔ w.toNat % 16 = k.toNat := by
  rw [← BitVec.toNat_inj, toNat_opField]

theorem varField_eq_iff (w : Word) (k : BitVec 2) : varField w = k ↔ w.toNat / 16 % 4 = k.toNat := by
  rw [← BitVec.toNat_inj, toNat_varField]

theorem res0Field_eq_iff (w : Word) (k : BitVec 2) : res0Field w = k ↔ w.toNat / 64 % 4 = k.toNat := by
  rw [← BitVec.toNat_inj, toNat_res0Field]

theorem aidxField_eq_iff (w : Word) (k : Code) : aidxField w = k ↔ w.toNat / 256 % 128 = k.toNat := by
  rw [← BitVec.toNat_inj, toNat_aidxField]

theorem res1Field_eq_iff (w : Word) (k : BitVec 17) : res1Field w = k ↔ w.toNat / 32768 = k.toNat := by
  rw [← BitVec.toNat_inj, toNat_res1Field]

/-- R77 on the word as a number. -/
theorem decode_eq (w : Word) :
    decode w =
      if w.toNat / 64 % 4 ≠ 0 ∨ w.toNat / 32768 ≠ 0 then .illegal .reservedBits
      else if w.toNat % 16 = 1 then decodePlain w .enc4
      else if w.toNat % 16 = 2 then decodePlain w .dec5
      else if w.toNat % 16 = 3 then decodeVariant w .encodeDefault .encodeStrict .encodePadded
      else if w.toNat % 16 = 4 then decodeVariant w .decodeDefault .decodeStrict .decodePadded
      else if w.toNat % 16 = 5 then decodeRdalpha w
      else .illegal .reservedOp := by
  rw [decode]
  simp only [ne_eq, opField_eq_iff, res0Field_eq_iff, res1Field_eq_iff]
  rfl

theorem decodePlain_eq (w : Word) (i : Instr) :
    decodePlain w i =
      if w.toNat / 16 % 4 ≠ 0 then .illegal .badVariant
      else if w.toNat / 256 % 128 ≠ 0 then .illegal .badAlphabetIndex
      else .command i := by
  rw [decodePlain]
  simp only [ne_eq, varField_eq_iff, aidxField_eq_iff]
  rfl

theorem decodeVariant_eq (w : Word) (a b c : Instr) :
    decodeVariant w a b c =
      if w.toNat / 256 % 128 ≠ 0 then .illegal .badAlphabetIndex
      else if w.toNat / 16 % 4 = 0 then .command a
      else if w.toNat / 16 % 4 = 1 then .command b
      else if w.toNat / 16 % 4 = 2 then .command c
      else .illegal .badVariant := by
  rw [decodeVariant]
  simp only [ne_eq, varField_eq_iff, aidxField_eq_iff]
  rfl

theorem decodeRdalpha_eq (w : Word) :
    decodeRdalpha w =
      if w.toNat / 16 % 4 ≠ 0 then .illegal .badVariant
      else if w.toNat / 256 % 128 < 85 then .command (.rdalpha (aidxField w))
      else .illegal .badAlphabetIndex := by
  rw [decodeRdalpha]
  simp only [ne_eq, varField_eq_iff, toNat_aidxField]
  rfl

/-- A word laid out from its fields, as a number (R71). -/
theorem toNat_commandWord (op : BitVec 4) (var : BitVec 2) (aidx : Code) :
    (commandWord op var aidx).toNat = aidx.toNat * 2 ^ 8 + var.toNat * 2 ^ 4 + op.toNat := by
  have h1 := op.isLt
  have h2 := var.isLt
  have h3 := aidx.isLt
  have h4 : (0 : BitVec 2).toNat < 2 ^ 2 := by decide
  simp only [commandWord, BitVec.toNat_append]
  rw [← Nat.shiftLeft_add_eq_or_of_lt h1, ← Nat.shiftLeft_add_eq_or_of_lt h2, ← Nat.shiftLeft_add_eq_or_of_lt h4,
    ← Nat.shiftLeft_add_eq_or_of_lt h3]
  simp only [Nat.shiftLeft_eq, show (0 : BitVec 17).toNat = 0 from rfl, show (0 : BitVec 2).toNat = 0 from rfl]
  omega

/-- The words of R75 as numbers. -/
theorem toNat_encode (i : Instr) :
    (encode i).toNat =
      match i with
      | .enc4 => 0x01
      | .dec5 => 0x02
      | .encodeDefault => 0x03
      | .encodeStrict => 0x13
      | .encodePadded => 0x23
      | .decodeDefault => 0x04
      | .decodeStrict => 0x14
      | .decodePadded => 0x24
      | .rdalpha a => 0x05 + 256 * a.toNat := by
  cases i <;> rw [encode, toNat_commandWord] <;> try rfl
  simp; omega

end Sys2Proof
end

