-- ==== Sys2Proof/Laws/PerInstr.lean ====
section
/-! SUPPORT. Facts about every instruction as a term, one lemma per constructor. -/

/-- The word of a command leaves the reserved fields `RES0` and `RES1` zero: "reserved, must be 0" (R71). -/
def Sys2Proof.Laws.ReservedZero.Statement (i : Sys2Proof.Instr) : Prop :=
  Sys2Proof.res0Field (Sys2Proof.encode i) = 0 ∧ Sys2Proof.res1Field (Sys2Proof.encode i) = 0

namespace Sys2Proof.Laws.ReservedZero

theorem enc4 : Statement .enc4 := by unfold Statement; decide

theorem dec5 : Statement .dec5 := by unfold Statement; decide

theorem encodeDefault : Statement .encodeDefault := by unfold Statement; decide

theorem encodeStrict : Statement .encodeStrict := by unfold Statement; decide

theorem encodePadded : Statement .encodePadded := by unfold Statement; decide

theorem decodeDefault : Statement .decodeDefault := by unfold Statement; decide

theorem decodeStrict : Statement .decodeStrict := by unfold Statement; decide

theorem decodePadded : Statement .decodePadded := by unfold Statement; decide

theorem rdalpha (aidx : Code) : Statement (.rdalpha aidx) := by
  unfold Statement
  have all : ∀ a : BitVec 7, res0Field (encode (.rdalpha a)) = 0 ∧ res1Field (encode (.rdalpha a)) = 0 := by decide
  exact all aidx

end Sys2Proof.Laws.ReservedZero
end

