-- ==== Sys2Proof/Tests/Slice0.lean ====
section
/-! SUPPORT. Tests of the model on the spec's own vectors (95_test_vectors.md), each one step, and for every statement
with hypotheses a witness that meets them together. -/

namespace Sys2Proof.Tests

open Sys2Proof Sys2Proof.Machine

/-! ## The states the tests start from -/

/-- A block with the default alphabet, the mark `'~'` (one of R22's candidates) and 16 entries a buffer. -/
def demo : State := State.resetWith ⟨zeroMqAlphabet, 0x7E, 16⟩

/-- `demo` with the bytes in `BYTE_BUF[0..)` and `IN_LEN` their number. -/
def withBytes (bs : List Byte) : State :=
  { demo with byteBuf := demo.byteBuf.writeRange 0 bs, inLen := BitVec.ofNat 32 bs.length }

/-- `demo` with the character codes in `CHAR_BUF[0..)` and `IN_LEN` their number. -/
def withChars (cs : List Word) : State :=
  { demo with charBuf := demo.charBuf.writeRange 0 cs, inLen := BitVec.ofNat 32 cs.length }

/-- `demo` with the five codes in `CHR_IN0..4`. -/
def withChrIn (k : Quint Word) : State := { demo with chrIn := k }

/-- `demo` with `DATA_IN` loaded. -/
def withDataIn (w : Word) : State := { demo with dataIn := w }

/-- `demo` with one host action to come. -/
def withAction (a : HostAction) : State := { demo with pending := [a] }

/-- The observation of a next state by `f`. -/
def after {α : Type} (o : StepResult) (f : State → α) : Option α := (nextState? o).map f

/-- `ERR`, `ERR_WIN` and `OUT_LEN`. -/
def status (s : State) : Nat × Nat × Nat := (s.err.toNat, s.errWin.toNat, s.outLen.toNat)

/-- The first `n` entries of a buffer as numbers. -/
def entries {w : Nat} (m : Memory w) (n : Nat) : List (Option Nat) :=
  (List.range n).map (fun i => (m.read i).map BitVec.toNat)

/-! ## Well-formedness (R71, R75) -/

theorem test_wellFormed_refuses_index_85 : (Instr.rdalpha 85).wellFormed = false := by decide

theorem test_wellFormed_admits_index_84 : (Instr.rdalpha 84).wellFormed = true := by decide

/-! ## Decoding: words written out from R71 (`RES1 AIDX RES0 VAR OP`) and R75 -/

theorem test_decode_enc4 : decode 0b00000000000000000_0000000_00_00_0001 = .command .enc4 := by decide

theorem test_decode_dec5 : decode 0b00000000000000000_0000000_00_00_0010 = .command .dec5 := by decide

theorem test_decode_encodeDefault :
    decode 0b00000000000000000_0000000_00_00_0011 = .command .encodeDefault := by decide

theorem test_decode_encodeStrict :
    decode 0b00000000000000000_0000000_00_01_0011 = .command .encodeStrict := by decide

theorem test_decode_encodePadded :
    decode 0b00000000000000000_0000000_00_10_0011 = .command .encodePadded := by decide

theorem test_decode_decodeDefault :
    decode 0b00000000000000000_0000000_00_00_0100 = .command .decodeDefault := by decide

theorem test_decode_decodeStrict :
    decode 0b00000000000000000_0000000_00_01_0100 = .command .decodeStrict := by decide

theorem test_decode_decodePadded :
    decode 0b00000000000000000_0000000_00_10_0100 = .command .decodePadded := by decide

/-- `rdalpha 10` is 0x00000A05 (95_test_vectors.md 2.3). -/
theorem test_decode_rdalpha : decode 0b00000000000000000_0001010_00_00_0101 = .command (.rdalpha 10) := by decide

/-- Words of R76's list with a reserved `OP` or `VAR`, or a misplaced `VAR`. -/
theorem test_decode_refuses_op_and_var :
    [0x0, 0x6, 0xF, 0x33, 0x34, 0x11, 0x22, 0x15].map (fun w => (decode w).command?) = List.replicate 8 none := by decide

/-- Words of R76's list with a reserved bit set, or a misplaced or reserved `AIDX`. -/
theorem test_decode_refuses_reserved_and_index :
    [0x41, 0x83, 0x8004, 0x80000001, 0x101, 0x7F03, 0x5505, 0x7F05].map (fun w => (decode w).command?)
      = List.replicate 8 none := by decide

theorem test_decodeTableWord_reads_the_row : decodeTableWord 32 0x00000A05 = some (.rdalpha 10) := by decide

theorem test_encode_rdalpha : encode (.rdalpha 84) = 0x00005405 := by decide

/-! ## Every row runs as the first command after reset -/

theorem test_step_runs_each_row_from_reset :
    ∀ w ∈ [0x01, 0x02, 0x03, 0x13, 0x23, 0x04, 0x14, 0x24, 0x05, 0x5405],
      (nextState? (step (State.reset.withFetchWord 32 w))).isSome = true := by decide

/-! ## Single commands on the vectors of 95_test_vectors.md, section 2 -/

/-- 2.1: `0x864FD26F` is `"Hello"`. -/
theorem test_enc4_hello :
    after (exec .enc4 (withDataIn 0x864FD26F)) (fun t => t.chrOut)
      = some ⟨0x48, 0x65, 0x6C, 0x6C, 0x6F⟩ := by decide

/-- 2.1: `0xFFFFFFFF` is `"%nSc0"`, the largest top digit. -/
theorem test_enc4_largest :
    after (exec .enc4 (withDataIn 0xFFFFFFFF)) (fun t => t.chrOut)
      = some ⟨0x25, 0x6E, 0x53, 0x63, 0x30⟩ := by decide

/-- 2.2: `"$0000"` has `acc = 4332651875`, truncated to `0x023F0563`. -/
theorem test_dec5_truncates :
    after (exec .dec5 (withChrIn ⟨0x24, 0x30, 0x30, 0x30, 0x30⟩)) (fun t => (t.dataOut, t.err))
      = some (0x023F0563, 0) := by decide

/-- 2.2: a code of `0x100` is rejected, although its low 8 bits are below 128. -/
theorem test_dec5_wide_code :
    after (exec .dec5 { withChrIn ⟨0x48, 0x65, 0x6C, 0x6C, 0x100⟩ with dataOut := 0x1234 })
      (fun t => (t.dataOut, t.err, t.errWin)) = some (0x1234, 2, 0) := by decide

/-- 2.4: `[01 02 03]` gives `"0rJu" <M>`. -/
theorem test_encodeDefault_three_bytes :
    after (exec .encodeDefault (withBytes [1, 2, 3])) (fun t => (status t, entries t.charBuf 6))
      = some ((0, 0, 5), [some 0x30, some 0x72, some 0x4A, some 0x75, some 0x7E, none]) := by decide

/-- 2.4: `[FF FF FF FF FF FF]` gives `"%nSc0%nJ" <M><M>`. -/
theorem test_encodeDefault_six_bytes :
    after (exec .encodeDefault (withBytes [0xFF, 0xFF, 0xFF, 0xFF, 0xFF, 0xFF])) (fun t => entries t.charBuf 10)
      = some [some 0x25, some 0x6E, some 0x53, some 0x63, some 0x30, some 0x25, some 0x6E, some 0x4A, some 0x7E,
        some 0x7E] := by decide

/-- 1.3: `[B5 25 88 9C]` gives `"WiZT0"`. -/
theorem test_encodeStrict_block :
    after (exec .encodeStrict (withBytes [0xB5, 0x25, 0x88, 0x9C])) (fun t => (status t, entries t.charBuf 5))
      = some ((0, 0, 5), [some 0x57, some 0x69, some 0x5A, some 0x54, some 0x30]) := by decide

/-- 2.4: `[01 02]` fails with INVALID_LENGTH and writes no entry. -/
theorem test_encodeStrict_short :
    after (exec .encodeStrict { withBytes [1, 2] with outLen := 7 }) (fun t => (status t, t.charBuf))
      = some ((1, 0, 0), []) := by decide

/-- 2.4: `[01 02]` gives `"0rJl3"`. -/
theorem test_encodePadded_two_bytes :
    after (exec .encodePadded (withBytes [1, 2])) (fun t => (status t, entries t.charBuf 5))
      = some ((0, 0, 5), [some 0x30, some 0x72, some 0x4A, some 0x6C, some 0x33]) := by decide

/-- R65, R173: 13 bytes fit the buffer of 16 entries, their 20 characters do not. -/
theorem test_encodePadded_output_capacity :
    after (exec .encodePadded { demo with inLen := 13 }) status = some (4, 0, 0) := by decide

/-- 2.5: `"0rJua1P" <M><M><M>` gives `[01 02 03 04 05]`. -/
theorem test_decodeDefault_marks :
    after (exec .decodeDefault (withChars [0x30, 0x72, 0x4A, 0x75, 0x61, 0x31, 0x50, 0x7E, 0x7E, 0x7E]))
      (fun t => (status t, entries t.byteBuf 6)) = some ((0, 0, 5), [some 1, some 2, some 3, some 4, some 5, none]) := by
  decide

/-- 2.5: `"0r" <M><M><M> "0rJua"` fails in window 0: a mark in a window that is not the last. -/
theorem test_decodeDefault_mark_not_last :
    after (exec .decodeDefault (withChars [0x30, 0x72, 0x7E, 0x7E, 0x7E, 0x30, 0x72, 0x4A, 0x75, 0x61])) status
      = some (2, 0, 0) := by decide

/-- 2.5: `"HelloWorld"`. -/
theorem test_decodeStrict_hello_world :
    after (exec .decodeStrict (withChars [0x48, 0x65, 0x6C, 0x6C, 0x6F, 0x57, 0x6F, 0x72, 0x6C, 0x64]))
      (fun t => (status t, entries t.byteBuf 8))
      = some ((0, 0, 8), [some 0x86, some 0x4F, some 0xD2, some 0x6F, some 0xB5, some 0x59, some 0xF7, some 0x5B]) := by
  decide

/-- 2.5: `"Hello Worl"` fails in window 1, and window 0 is not written out. -/
theorem test_decodeStrict_bad_window_1 :
    after (exec .decodeStrict (withChars [0x48, 0x65, 0x6C, 0x6C, 0x6F, 0x20, 0x57, 0x6F, 0x72, 0x6C]))
      (fun t => (status t, t.byteBuf)) = some ((2, 1, 0), []) := by decide

/-- 2.5: `"HelloW"` is padded to `"Hello" "W0000"`. -/
theorem test_decodePadded_six_characters :
    after (exec .decodePadded (withChars [0x48, 0x65, 0x6C, 0x6C, 0x6F, 0x57])) (fun t => (status t, entries t.byteBuf 8))
      = some ((0, 0, 8), [some 0x86, some 0x4F, some 0xD2, some 0x6F, some 0xB4, some 0x76, some 0x10, some 0x1A]) := by
  decide

/-- 2.5: a mark is no character for DECODE.PADDED. -/
theorem test_decodePadded_mark :
    after (exec .decodePadded (withChars [0x30, 0x72, 0x7E, 0x7E, 0x7E])) status = some (2, 0, 0) := by decide

/-- 2.3: `rdalpha 62` is `'.'`, and `CHR_OUT1..4` keep their values. -/
theorem test_rdalpha_62 :
    after (exec (.rdalpha 62) { demo with chrOut := ⟨1, 2, 3, 4, 5⟩ }) (fun t => t.chrOut)
      = some ⟨0x2E, 2, 3, 4, 5⟩ := by decide

/-- 2.3: the word 0x00005505 is illegal, and `OUT_LEN` is kept (R76). -/
theorem test_rdalpha_85_is_illegal :
    after (step { withAction (.regWrite 0 0x00005505) with outLen := 9 }) status = some (3, 0, 9) := by decide

/-! ## Witnesses: for every statement with hypotheses, a state and operands that meet them together -/

theorem demo_valid : demo.params.Valid where
  distinct := by decide
  printable := by decide
  classOrder := by decide
  markOutside := by decide
  capBound := by decide

theorem withBytes_valid (bs : List Byte) : (withBytes bs).params.Valid := demo_valid

theorem withChars_valid (cs : List Word) : (withChars cs).params.Valid := demo_valid

/-- A property of every index below the input's length, checked on a loaded string. -/
theorem charsWritten_of {s : State} {n : Nat} (hn : s.inLen.toNat = n)
    (h : ∀ i, i < n → s.charBuf.read i ≠ none) : CharsWritten s := fun i hi => h i (hn ▸ hi)

theorem bytesWritten_of {s : State} {n : Nat} (hn : s.inLen.toNat = n)
    (h : ∀ i, i < n → s.byteBuf.read i ≠ none) : BytesWritten s := fun i hi => h i (hn ▸ hi)

/-- A lane that maps to no digit is no alphabet character. -/
theorem not_validChar_of {p : Params} {k : Word} (h : ∀ d, d < 85 → charOfDigit p d ≠ some k) : ¬ ValidChar p k :=
  fun ⟨d, hd, e⟩ => h d hd e

theorem space_not_validChar : ¬ ValidChar demo.params 0x20 := not_validChar_of (by decide)

theorem wideCode_not_validChar : ¬ ValidChar demo.params 0x100 := not_validChar_of (by decide)

theorem demoMark_not_validChar : ¬ ValidChar demo.params 0x7E := not_validChar_of (by decide)

/-- Twelve input bytes: their 15 characters are the most whole windows the 16 entries hold. -/
def twelveBytes : List Byte := [0xB5, 0x25, 0x88, 0x9C, 0, 0, 0, 0, 0xFF, 0xFF, 0xFF, 0xFF]

/-- `"Hello"` and `"0r" <M><M><M>`. -/
def helloMarked : List Word := [0x48, 0x65, 0x6C, 0x6C, 0x6F, 0x30, 0x72, 0x7E, 0x7E, 0x7E]

/-- Its digit values, 84 at the marks. -/
def helloMarkedDigits (i : Nat) : Nat := [43, 14, 21, 21, 24, 0, 27].getD i 84

/-- `"HelloW"`. -/
def helloW : List Word := [0x48, 0x65, 0x6C, 0x6C, 0x6F, 0x57]

/-- Its digit values, 0 beyond its end. -/
def helloWDigits (i : Nat) : Nat := [43, 14, 21, 21, 24, 58].getD i 0

theorem witness_EncodeThenDecode : (Instr.rdalpha 84).wellFormed = true := by decide

theorem witness_DecodedWordIsItsEncoding : decode 0x00005405 = .command (.rdalpha 84) := by decide

theorem witness_IllegalWordConditions : ∃ (w : Word) (op var res0 aidx res1 : Nat),
    op = w.toNat % 2 ^ 4 ∧ var = w.toNat / 2 ^ 4 % 2 ^ 2 ∧ res0 = w.toNat / 2 ^ 6 % 2 ^ 2 ∧
      aidx = w.toNat / 2 ^ 8 % 2 ^ 7 ∧ res1 = w.toNat / 2 ^ 15 :=
  ⟨0x5505, 5, 0, 0, 85, 0, by decide, by decide, by decide, by decide, by decide⟩

theorem witness_IllegalCommandEffect : ∃ (s : State) (w : Word), s.pending = [.regWrite 0x00 w] ∧
    w.toNat ∉ [0x01, 0x02, 0x03, 0x13, 0x23, 0x04, 0x14, 0x24] ∧ ∀ a, a < 85 → w.toNat ≠ 0x05 + 2 ^ 8 * a :=
  ⟨withAction (.regWrite 0 0x5505), 0x5505, rfl, by decide, by decide⟩

theorem witness_StepRunsTheDecodedCommand : ∃ (s : State) (w : Word) (i : Instr),
    s.pending = [.regWrite 0x00 w] ∧ decode w = .command i :=
  ⟨withAction (.regWrite 0 0x24), 0x24, .decodePadded, rfl, by decide⟩

theorem witness_SilentHostChangesNothing : demo.pending = [] := rfl

theorem witness_RegisterPort_read : ∃ s t u : State, s.pending = [.regRead 0x40] ∧ 0x40 % 4 = 0 ∧
    t.pending = [.regRead 0x44] ∧ 0x44 % 4 = 0 ∧ u.pending = [.regRead 0x00] :=
  ⟨withAction (.regRead 0x40), withAction (.regRead 0x44), withAction (.regRead 0), rfl, rfl, rfl, rfl, rfl⟩

theorem witness_RegisterPort_write : ∃ s t : State, s.pending = [.regWrite 0x3C 7] ∧ 0x3C % 4 = 0 ∧ 0x3C ≠ 0x00 ∧
    t.pending = [.regWrite 0x40 7] ∧ 0x40 % 4 = 0 ∧ 0x40 ≠ 0x00 :=
  ⟨withAction (.regWrite 0x3C 7), withAction (.regWrite 0x40 7), rfl, by decide, by decide, rfl, by decide, by decide⟩

theorem witness_MisalignedOffsetRefused : ∃ s t : State, 0x41 % 4 ≠ 0 ∧ s.pending = [.regRead 0x41] ∧
    t.pending = [.regWrite 0x41 7] :=
  ⟨withAction (.regRead 0x41), withAction (.regWrite 0x41 7), by decide, rfl, rfl⟩

theorem witness_BufferPort_within : ∃ s t u v : State, 15 < demo.params.bufCap ∧
    s.params = demo.params ∧ s.pending = [.bufWrite .byteBuf 15 0x1FF] ∧
    t.params = demo.params ∧ t.pending = [.bufWrite .charBuf 15 0x1FF] ∧
    u.params = demo.params ∧ u.pending = [.bufRead .byteBuf 15] ∧ u.byteBuf.read 15 = some 0xAB ∧
    v.params = demo.params ∧ v.pending = [.bufRead .charBuf 15] ∧ v.charBuf.read 15 = some 0x48 :=
  ⟨withAction (.bufWrite .byteBuf 15 0x1FF), withAction (.bufWrite .charBuf 15 0x1FF),
    { withAction (.bufRead .byteBuf 15) with byteBuf := [(15, 0xAB)] },
    { withAction (.bufRead .charBuf 15) with charBuf := [(15, 0x48)] },
    by decide, rfl, rfl, rfl, rfl, rfl, rfl, rfl, rfl, rfl, rfl⟩

theorem witness_BufferPort_beyond : ∃ s t : State, s.params.bufCap ≤ 16 ∧ s.pending = [.bufRead .charBuf 16] ∧
    t.params.bufCap ≤ 16 ∧ t.pending = [.bufWrite .charBuf 16 0] :=
  ⟨withAction (.bufRead .charBuf 16), withAction (.bufWrite .charBuf 16 0), by decide, rfl, by decide, rfl⟩

theorem witness_UnwrittenHostReadFaults : ∃ s t : State, 15 < s.params.bufCap ∧
    s.pending = [.bufRead .byteBuf 15] ∧ s.byteBuf.read 15 = none ∧ 15 < t.params.bufCap ∧
    t.pending = [.bufRead .charBuf 15] ∧ t.charBuf.read 15 = none :=
  ⟨withAction (.bufRead .byteBuf 15), withAction (.bufRead .charBuf 15), by decide, rfl, rfl, by decide, rfl, rfl⟩

theorem witness_ResetValues : (withAction .reset).pending = [.reset] ∧ 0x40 % 4 = 0 := ⟨rfl, rfl⟩

theorem witness_IndexRomContents : ∃ (p : Params) (c : Code) (i : Instr) (s t : State), p.Valid ∧
    p.alphabet.toList[84]? = some 0x23 ∧ c ∉ p.alphabet.toList ∧ exec i s = .next t :=
  ⟨demo.params, 0x7E, .enc4, demo, _, demo_valid, rfl, by decide, rfl⟩

theorem witness_MarkIsNoCharacter : ∃ (p : Params) (k : Quint Word), p.Valid ∧ markEntry p ∈ k.toList :=
  ⟨demo.params, ⟨0x48, 0x65, 0x6C, 0x7E, 0x6F⟩, demo_valid, by decide⟩

theorem witness_EncoderRange : encDigits 0xFFFFFFFF = ⟨82, 23, 54, 12, 0⟩ ∧
    0x23 ∈ (encChars demo.params 84).toList := by decide

/-- `"%nSc0"`, the largest canonical block, and `"Hel" <M> "o"`. -/
theorem witness_Dec5Result : ∃ s t : State, s.params.Valid ∧ charOfDigit s.params 82 = some s.chrIn.c0 ∧
    charOfDigit s.params 23 = some s.chrIn.c1 ∧ charOfDigit s.params 54 = some s.chrIn.c2 ∧
    charOfDigit s.params 12 = some s.chrIn.c3 ∧ charOfDigit s.params 0 = some s.chrIn.c4 ∧
    t.params.Valid ∧ ∃ k ∈ t.chrIn.toList, ¬ ValidChar t.params k :=
  ⟨withChrIn ⟨0x25, 0x6E, 0x53, 0x63, 0x30⟩, withChrIn ⟨0x48, 0x65, 0x6C, 0x7E, 0x6F⟩, demo_valid, by decide, by decide,
    by decide, by decide, by decide, demo_valid, 0x7E, by decide, demoMark_not_validChar⟩

theorem witness_DecoderRejection : demo.params.Valid := demo_valid

/-- `"%nSc1"`, whose value is 2^32, and `"#####"`, the largest. -/
theorem witness_OverflowIsTruncated : ∃ s t : State, s.params.Valid ∧ charOfDigit s.params 82 = some s.chrIn.c0 ∧
    charOfDigit s.params 23 = some s.chrIn.c1 ∧ charOfDigit s.params 54 = some s.chrIn.c2 ∧
    charOfDigit s.params 12 = some s.chrIn.c3 ∧ charOfDigit s.params 1 = some s.chrIn.c4 ∧
    2 ^ 32 ≤ digitsValue 82 23 54 12 1 ∧ t.params.Valid ∧
    charOfDigit t.params 84 = some t.chrIn.c0 ∧ t.chrIn = ⟨t.chrIn.c0, t.chrIn.c0, t.chrIn.c0, t.chrIn.c0, t.chrIn.c0⟩ ∧
    2 ^ 32 ≤ digitsValue 84 84 84 84 84 :=
  ⟨withChrIn ⟨0x25, 0x6E, 0x53, 0x63, 0x31⟩, withChrIn ⟨0x23, 0x23, 0x23, 0x23, 0x23⟩, demo_valid, by decide, by decide,
    by decide, by decide, by decide, by decide, demo_valid, by decide, rfl, by decide⟩

theorem witness_RdalphaResult : demo.params.alphabet.toList[(84 : Code).toNat]? = some 0x23 := by decide

/-- Law 2 on `"%nSc0"` and `"%nSc1"`, law 3 on `"%nSc0"` twice, law 4 on `W = 85`, digits `(0,0,0,1,0)`. -/
theorem witness_CoreLaws : demo.params.Valid ∧
    (∃ k : Quint Word, charOfDigit demo.params 82 = some k.c0 ∧ charOfDigit demo.params 23 = some k.c1 ∧
      charOfDigit demo.params 54 = some k.c2 ∧ charOfDigit demo.params 12 = some k.c3 ∧
      charOfDigit demo.params 0 = some k.c4 ∧ digitsValue 82 23 54 12 0 < 2 ^ 32 ∧
      decBlock demo.params k = some 0xFFFFFFFF) ∧
    (∃ k : Quint Word, charOfDigit demo.params 82 = some k.c0 ∧ charOfDigit demo.params 23 = some k.c1 ∧
      charOfDigit demo.params 54 = some k.c2 ∧ charOfDigit demo.params 12 = some k.c3 ∧
      charOfDigit demo.params 1 = some k.c4 ∧ 2 ^ 32 ≤ digitsValue 82 23 54 12 1) ∧
    (∃ k : Quint Word, digitOf (85 : Word).toNat 1 ≠ digitOf (85 : Word).toNat 3 ∧
      k.toList = ((encChars demo.params 85).map (fun c => c.setWidth 32)).toList.reverse) :=
  ⟨demo_valid,
    ⟨⟨0x25, 0x6E, 0x53, 0x63, 0x30⟩, by decide, by decide, by decide, by decide, by decide, by decide, by decide⟩,
    ⟨⟨0x25, 0x6E, 0x53, 0x63, 0x31⟩, by decide, by decide, by decide, by decide, by decide, by decide⟩,
    ⟨⟨0x30, 0x31, 0x30, 0x30, 0x30⟩, by decide, by decide⟩⟩

theorem witness_TailFillIsExact : demo.params.Valid ∧ 1 ≤ ([0xFF] : List Byte).length ∧
    ([0xFF] : List Byte).length ≤ 3 ∧ 3 = 4 - ([0xFF] : List Byte).length ∧
    1 ≤ ([0xFF, 0xFF, 0xFF] : List Byte).length ∧ ([0xFF, 0xFF, 0xFF] : List Byte).length ≤ 3 ∧
    1 = 4 - ([0xFF, 0xFF, 0xFF] : List Byte).length :=
  ⟨demo_valid, by decide, by decide, by decide, by decide, by decide, by decide⟩

/-- 17 bytes exceed the buffer; 13 do not, but their characters do; 12 bytes and their characters fit. -/
theorem witness_EncodeDefaultResult : ∃ s t u : State, s.params.bufCap < s.inLen.toNat ∧
    t.inLen.toNat ≤ t.params.bufCap ∧ t.params.bufCap < 5 * ((t.inLen.toNat + 3) / 4) ∧
    u.inLen.toNat = 9 ∧ 9 ≤ u.params.bufCap ∧ 5 * ((9 + 3) / 4) ≤ u.params.bufCap ∧ BytesWritten u :=
  ⟨{ demo with inLen := 17 }, { demo with inLen := 13 }, withBytes (twelveBytes.take 9), by decide, by decide, by decide,
    by decide, by decide, by decide, bytesWritten_of (n := 9) (by decide) (by decide)⟩

theorem witness_EncodeStrictResult : ∃ s t u v : State, s.params.bufCap < s.inLen.toNat ∧
    (t.inLen.toNat ≤ t.params.bufCap ∧ t.inLen.toNat % 4 ≠ 0) ∧
    (u.inLen.toNat ≤ u.params.bufCap ∧ u.inLen.toNat % 4 = 0 ∧ u.params.bufCap < 5 * (u.inLen.toNat / 4)) ∧
    (v.inLen.toNat = 12 ∧ 12 ≤ v.params.bufCap ∧ 12 % 4 = 0 ∧ 5 * (12 / 4) ≤ v.params.bufCap ∧ BytesWritten v) :=
  ⟨{ demo with inLen := 17 }, { demo with inLen := 15 }, { demo with inLen := 16 }, withBytes twelveBytes, by decide,
    by decide, by decide, by decide, by decide, by decide, by decide,
    bytesWritten_of (n := 12) (by decide) (by decide)⟩

theorem witness_EncodePaddedResult : ∃ s t u : State, s.params.bufCap < s.inLen.toNat ∧
    t.inLen.toNat ≤ t.params.bufCap ∧ t.params.bufCap < 5 * ((t.inLen.toNat + 3) / 4) ∧
    u.inLen.toNat = 9 ∧ 9 ≤ u.params.bufCap ∧ 5 * ((9 + 3) / 4) ≤ u.params.bufCap ∧ BytesWritten u :=
  witness_EncodeDefaultResult

/-- The checks of the decodes of whole windows: a length beyond the buffer, and one that is no multiple of 5. -/
theorem witness_decode_checks : ∃ s t : State, s.params.Valid ∧ s.params.bufCap < s.inLen.toNat ∧
    t.params.Valid ∧ t.inLen.toNat ≤ t.params.bufCap ∧ t.inLen.toNat % 5 ≠ 0 :=
  ⟨{ demo with inLen := 17 }, { demo with inLen := 16 }, demo_valid, by decide, demo_valid, by decide, by decide⟩

/-- Success with the most marks there can be, 3. -/
theorem witness_DecodeDefaultResult_success : ∃ (s : State) (v : Nat → Nat), s.params.Valid ∧ s.inLen.toNat = 10 ∧
    10 ≤ s.params.bufCap ∧ 10 = 5 * 2 ∧ 3 ≤ 3 ∧
    (∀ i, i < 10 - 3 → v i < 85 ∧ s.charBuf.read i = charOfDigit s.params (v i)) ∧
    ∀ i, 10 - 3 ≤ i → i < 10 → v i = 84 ∧ s.charBuf.read i = some (markEntry s.params) :=
  ⟨withChars helloMarked, helloMarkedDigits, withChars_valid _, by decide, by decide, by decide, by decide, by decide,
    fun i h1 h2 => (by decide : ∀ i, i < 10 → 10 - 3 ≤ i → helloMarkedDigits i = 84 ∧
      (withChars helloMarked).charBuf.read i = some (markEntry (withChars helloMarked).params)) i h2 h1⟩

/-- `"He" <M> "lo" "Hello"`: a bad character in a window that is not the last. -/
theorem witness_DecodeDefaultResult_full_window : ∃ s : State, s.params.Valid ∧ s.inLen.toNat = 10 ∧
    10 ≤ s.params.bufCap ∧ 10 = 5 * 2 ∧ 0 < 2 ∧ (∀ i, i < 5 * 0 → GoodEntry s i) ∧
    (∀ q, q < 5 → s.charBuf.read (5 * 0 + q) ≠ none) ∧ 0 + 1 < 2 ∧ ∃ q, q < 5 ∧ BadEntry s (5 * 0 + q) :=
  ⟨withChars [0x48, 0x65, 0x7E, 0x6C, 0x6F, 0x48, 0x65, 0x6C, 0x6C, 0x6F], withChars_valid _, by decide, by decide,
    by decide, by decide, fun i hi => absurd hi (Nat.not_lt_zero i), by decide, by decide, 2, by decide, 0x7E, by decide,
    demoMark_not_validChar⟩

/-- `"0" <M><M><M><M>`: a last window with 4 marks. -/
theorem witness_DecodeDefaultResult_four_marks : ∃ s : State, s.params.Valid ∧ s.inLen.toNat = 5 ∧
    5 ≤ s.params.bufCap ∧ 5 = 5 * 1 ∧ 0 < 1 ∧ (∀ i, i < 5 * 0 → GoodEntry s i) ∧
    (∀ q, q < 5 → s.charBuf.read (5 * 0 + q) ≠ none) ∧ 0 + 1 = 1 ∧ TrailingMarks s 0 4 ∧ 4 ≤ 4 :=
  ⟨withChars [0x30, 0x7E, 0x7E, 0x7E, 0x7E], withChars_valid _, by decide, by decide, by decide, by decide,
    fun i hi => absurd hi (Nat.not_lt_zero i), by decide, by decide,
    ⟨by decide, fun q h1 h2 => (by decide : ∀ q, q < 5 → 5 - 4 ≤ q →
      (withChars [0x30, 0x7E, 0x7E, 0x7E, 0x7E]).charBuf.read (5 * 0 + q)
        = some (markEntry (withChars [0x30, 0x7E, 0x7E, 0x7E, 0x7E]).params)) q h2 h1, by decide⟩, by decide⟩

/-- `"0r" <M> "J" <M>`: a mark that is not trailing. -/
theorem witness_DecodeDefaultResult_inner_mark : ∃ s : State, s.params.Valid ∧ s.inLen.toNat = 5 ∧
    5 ≤ s.params.bufCap ∧ 5 = 5 * 1 ∧ (∀ q, q < 5 → s.charBuf.read (5 * 0 + q) ≠ none) ∧ 0 + 1 = 1 ∧
    TrailingMarks s 0 1 ∧ ∃ q, q < 5 - 1 ∧ BadEntry s (5 * 0 + q) :=
  ⟨withChars [0x30, 0x72, 0x7E, 0x4A, 0x7E], withChars_valid _, by decide, by decide, by decide, by decide, by decide,
    ⟨by decide, fun q h1 h2 => (by decide : ∀ q, q < 5 → 5 - 1 ≤ q →
      (withChars [0x30, 0x72, 0x7E, 0x4A, 0x7E]).charBuf.read (5 * 0 + q)
        = some (markEntry (withChars [0x30, 0x72, 0x7E, 0x4A, 0x7E]).params)) q h2 h1, by decide⟩,
    2, by decide, 0x7E, by decide, demoMark_not_validChar⟩

theorem witness_DecodeStrictResult_success : ∃ (s : State) (v : Nat → Nat), s.params.Valid ∧ s.inLen.toNat = 5 ∧
    5 ≤ s.params.bufCap ∧ 5 = 5 * 1 ∧ ∀ i, i < 5 → v i < 85 ∧ s.charBuf.read i = charOfDigit s.params (v i) :=
  ⟨withChars (helloMarked.take 5), helloMarkedDigits, withChars_valid _, by decide, by decide, by decide, by decide⟩

/-- `"Hello Worl"`: window 0 is good, window 1 is bad. -/
theorem witness_DecodeStrictResult_bad : ∃ s : State, s.params.Valid ∧ s.inLen.toNat = 10 ∧ 10 ≤ s.params.bufCap ∧
    10 = 5 * 2 ∧ 1 < 2 ∧ (∀ i, i < 5 * 1 → GoodEntry s i) ∧ (∀ q, q < 5 → s.charBuf.read (5 * 1 + q) ≠ none) ∧
    ∃ q, q < 5 ∧ BadEntry s (5 * 1 + q) :=
  ⟨withChars [0x48, 0x65, 0x6C, 0x6C, 0x6F, 0x20, 0x57, 0x6F, 0x72, 0x6C], withChars_valid _, by decide, by decide,
    by decide, by decide,
    fun i hi => ⟨([0x48, 0x65, 0x6C, 0x6C, 0x6F] : List Word).getD i 0,
      (by decide : ∀ i, i < 5 → (withChars [0x48, 0x65, 0x6C, 0x6C, 0x6F, 0x20, 0x57, 0x6F, 0x72, 0x6C]).charBuf.read i
        = some (([0x48, 0x65, 0x6C, 0x6C, 0x6F] : List Word).getD i 0)) i hi,
      helloMarkedDigits i, (by decide : ∀ i, i < 5 → helloMarkedDigits i < 85) i hi,
      (by decide : ∀ i, i < 5 → charOfDigit demo.params (helloMarkedDigits i)
        = some (([0x48, 0x65, 0x6C, 0x6C, 0x6F] : List Word).getD i 0)) i hi⟩,
    by decide, 0, by decide, 0x20, by decide, space_not_validChar⟩

/-- 17 characters exceed the buffer; with `BUF_CAP = 8`, 6 do not, but the 8 bytes of `"HelloW"` fit and a single
character's 4 bytes do not fit `BUF_CAP = 3`. -/
theorem witness_DecodePaddedResult_checks : ∃ s t : State, s.params.Valid ∧ s.params.bufCap < s.inLen.toNat ∧
    t.params.Valid ∧ t.inLen.toNat = 1 ∧ 1 ≤ t.params.bufCap ∧ t.params.bufCap < 4 * ((1 + 4) / 5) :=
  ⟨{ demo with inLen := 17 }, { demo with inLen := 1, params := ⟨zeroMqAlphabet, 0x7E, 3⟩ }, demo_valid, by decide,
    { distinct := demo_valid.distinct
      printable := demo_valid.printable
      classOrder := demo_valid.classOrder
      markOutside := demo_valid.markOutside
      capBound := by decide },
    by decide, by decide, by decide⟩

theorem witness_DecodePaddedResult_success : ∃ (s : State) (v : Nat → Nat), s.params.Valid ∧ s.inLen.toNat = 6 ∧
    6 ≤ s.params.bufCap ∧ 4 * ((6 + 4) / 5) ≤ s.params.bufCap ∧
    (∀ i, i < 6 → v i < 85 ∧ s.charBuf.read i = charOfDigit s.params (v i)) ∧ ∀ i, 6 ≤ i → v i = 0 :=
  ⟨withChars helloW, helloWDigits, withChars_valid _, by decide, by decide, by decide, by decide,
    fun i hi => by simp [helloWDigits, List.getElem?_eq_none (l := [43, 14, 21, 21, 24, 58]) hi]⟩

/-- `"Hello" 0x100`: the bad code is in the short tail's window, 1. -/
theorem witness_DecodePaddedResult_bad : ∃ s : State, s.params.Valid ∧ s.inLen.toNat = 6 ∧ 6 ≤ s.params.bufCap ∧
    4 * ((6 + 4) / 5) ≤ s.params.bufCap ∧ CharsWritten s ∧ (∀ i, i < 5 * 1 → GoodEntry s i) ∧
    ∃ q, q < 5 ∧ 5 * 1 + q < 6 ∧ BadEntry s (5 * 1 + q) :=
  ⟨withChars [0x48, 0x65, 0x6C, 0x6C, 0x6F, 0x100], withChars_valid _, by decide, by decide, by decide,
    charsWritten_of (n := 6) (by decide) (by decide),
    fun i hi => ⟨([0x48, 0x65, 0x6C, 0x6C, 0x6F] : List Word).getD i 0,
      (by decide : ∀ i, i < 5 → (withChars [0x48, 0x65, 0x6C, 0x6C, 0x6F, 0x100]).charBuf.read i
        = some (([0x48, 0x65, 0x6C, 0x6C, 0x6F] : List Word).getD i 0)) i hi,
      helloMarkedDigits i, (by decide : ∀ i, i < 5 → helloMarkedDigits i < 85) i hi,
      (by decide : ∀ i, i < 5 → charOfDigit demo.params (helloMarkedDigits i)
        = some (([0x48, 0x65, 0x6C, 0x6C, 0x6F] : List Word).getD i 0)) i hi⟩,
    0, by decide, by decide, 0x100, by decide, wideCode_not_validChar⟩

/-- The hypotheses of the Default and Padded round trips, for whole blocks and for a tail. -/
theorem witness_round_trips : ∃ s t : State, s.params.Valid ∧ s.inLen.toNat = 12 ∧
    5 * ((12 + 3) / 4) ≤ s.params.bufCap ∧ BytesWritten s ∧ t.params.Valid ∧ t.inLen.toNat = 9 ∧
    5 * ((9 + 3) / 4) ≤ t.params.bufCap ∧ BytesWritten t :=
  ⟨withBytes twelveBytes, withBytes (twelveBytes.take 9), withBytes_valid _, by decide, by decide,
    bytesWritten_of (n := 12) (by decide) (by decide), withBytes_valid _, by decide, by decide,
    bytesWritten_of (n := 9) (by decide) (by decide)⟩

/-- The Strict clauses: whole blocks; and 15 bytes, none written, whose output would not fit either. -/
theorem witness_StrictRoundTrip : ∃ s t : State, s.inLen.toNat = 12 ∧ s.params.Valid ∧ 12 % 4 = 0 ∧
    5 * (12 / 4) ≤ s.params.bufCap ∧ BytesWritten s ∧ t.inLen.toNat = 15 ∧ 15 % 4 ≠ 0 ∧ 15 ≤ t.params.bufCap :=
  ⟨withBytes twelveBytes, { demo with inLen := 15 }, by decide, withBytes_valid _, by decide, by decide,
    bytesWritten_of (n := 12) (by decide) (by decide), by decide, by decide, by decide⟩

/-- `OutputLengths`, one clause at a time: each command succeeds on some state. -/
theorem witness_OutputLengths_encode : ∃ s u t1 t2 t3 : State, s.params.Valid ∧ u.params.Valid ∧
    t1.err = 0 ∧ exec .encodeDefault s = .next t1 ∧ t2.err = 0 ∧ exec .encodePadded s = .next t2 ∧
    t3.err = 0 ∧ exec .encodeStrict u = .next t3 :=
  ⟨withBytes [1, 2, 3], withBytes [1, 2, 3, 4], _, _, _, demo_valid, demo_valid, rfl, rfl, rfl, rfl, rfl, rfl⟩

theorem witness_OutputLengths_decode : ∃ s u v t1 t2 t3 : State, s.params.Valid ∧ u.params.Valid ∧ v.params.Valid ∧
    t1.err = 0 ∧ exec .decodeDefault s = .next t1 ∧ t2.err = 0 ∧ exec .decodeStrict u = .next t2 ∧
    t3.err = 0 ∧ exec .decodePadded v = .next t3 :=
  ⟨withChars helloMarked, withChars (helloMarked.take 5), withChars helloW, _, _, _, demo_valid, demo_valid, demo_valid,
    rfl, rfl, rfl, rfl, rfl, rfl⟩

/-- Entry 3 of an encoded `[01 02 03]` is a character, entry 4 the mark. -/
theorem witness_AlphabetClosure : ∃ s t : State, isEncode .encodeDefault ∧ s.params.Valid ∧
    exec .encodeDefault s = .next t ∧ t.err = 0 ∧ 4 < t.outLen.toNat ∧ s.inLen.toNat % 4 ≠ 0 ∧
    t.outLen.toNat ≤ 4 + (4 - s.inLen.toNat % 4) ∧ ¬ t.outLen.toNat ≤ 3 + (4 - s.inLen.toNat % 4) :=
  ⟨withBytes [1, 2, 3], _, Or.inl rfl, demo_valid, rfl, rfl, by decide, by decide, by decide, by decide⟩

/-- `"Hello Worl"` for the three DECODE commands: no trailing mark, so every entry is one that must be good. -/
theorem witness_DecodeRejection : ∃ s : State, s.params.Valid ∧ s.inLen.toNat ≤ s.params.bufCap ∧ CharsWritten s ∧
    s.inLen.toNat % 5 = 0 ∧ 4 * ((s.inLen.toNat + 4) / 5) ≤ s.params.bufCap ∧
    ∃ i, i < s.inLen.toNat ∧ BadEntry s i ∧
      ∀ m, TrailingMarks s (s.inLen.toNat / 5 - 1) m → i < s.inLen.toNat - m :=
  ⟨withChars [0x48, 0x65, 0x6C, 0x6C, 0x6F, 0x20, 0x57, 0x6F, 0x72, 0x6C], demo_valid, by decide,
    charsWritten_of (n := 10) (by decide) (by decide), by decide, by decide, 5, by decide,
    ⟨0x20, by decide, space_not_validChar⟩, by
      rintro m ⟨h5, hmarks, -⟩
      by_contra hm
      have hm5 : m = 5 := by
        have : (withChars [0x48, 0x65, 0x6C, 0x6C, 0x6F, 0x20, 0x57, 0x6F, 0x72, 0x6C]).inLen.toNat = 10 := by decide
        omega
      exact absurd (hmarks 4 (by omega) (by omega)) (by decide)⟩

theorem witness_ErrorKindsOfEachCommand : ∃ s t : State, (Instr.rdalpha 84).wellFormed = true ∧
    exec (.rdalpha 84) s = .next t := ⟨demo, _, by decide, rfl⟩

/-- A failed ENCODE.STRICT, and an illegal word. -/
theorem witness_FailureEffects : ∃ s t : State, exec .encodeStrict s = .next t ∧ t.err ≠ 0 ∧
    decode 0x33 = .illegal .badVariant :=
  ⟨withBytes [1, 2], _, rfl, by decide, by decide⟩

theorem witness_FailureRepeatsIdentically : ∃ s t : State, exec .decodeStrict s = .next t ∧ t.err ≠ 0 :=
  ⟨withChars [0x48, 0x65, 0x6C, 0x7E, 0x6F], _, rfl, by decide⟩

theorem witness_CommandFrame : ∃ s t u v : State, s.params.Valid ∧ exec .encodeDefault s = .next t ∧
    isEncode .encodeDefault ∧ u.params.Valid ∧ exec .decodeDefault u = .next v ∧ isDecode .decodeDefault :=
  ⟨withBytes [1, 2, 3], _, withChars helloMarked, _, demo_valid, rfl, Or.inl rfl, demo_valid, rfl, Or.inl rfl⟩

/-- Two states that agree on DEC5's operands and differ elsewhere. -/
theorem witness_ResultDependsOnlyOnOperands : ∃ s s' t : State, s ≠ s' ∧ SameOperands .dec5 s s' ∧
    exec .dec5 s = .next t :=
  ⟨withChrIn ⟨0x48, 0x65, 0x6C, 0x6C, 0x6F⟩, { withChrIn ⟨0x48, 0x65, 0x6C, 0x6C, 0x6F⟩ with inLen := 3, err := 4 }, _,
    by decide, ⟨rfl, rfl⟩, rfl⟩

/-- A buffer read of the last entry, and a command with its operand entries written. -/
theorem witness_WellBehavedActionsComplete : ∃ s t : State, s.pending = [.bufRead .byteBuf 15] ∧
    WellBehaved s (.bufRead .byteBuf 15) ∧ t.pending = [.regWrite 0x00 0x03] ∧ WellBehaved t (.regWrite 0x00 0x03) :=
  ⟨{ withAction (.bufRead .byteBuf 15) with byteBuf := [(15, 0xAB)] },
    { withBytes [1, 2, 3] with pending := [.regWrite 0x00 0x03] }, rfl,
    ⟨by decide, fun h => absurd h (by decide)⟩, rfl,
    ⟨rfl, fun _ i hi => by
      have : i = .encodeDefault := by
        have h : decode 0x03 = .command .encodeDefault := by decide
        rw [h] at hi
        exact (Decoded.command.inj hi).symm
      subst this
      exact bytesWritten_of (n := 3) (by decide) (by decide)⟩⟩

/-- `demo` with a length and no entry written. -/
theorem witness_UnwrittenOperandFaults_encode : ∃ s : State, s.params.Valid ∧ s.inLen.toNat = 12 ∧
    12 ≤ s.params.bufCap ∧ 5 * ((12 + 3) / 4) ≤ s.params.bufCap ∧ ¬ BytesWritten s ∧ 12 % 4 = 0 :=
  ⟨{ demo with inLen := 12 }, demo_valid, by decide, by decide, by decide,
    fun h => h 11 (by decide) (by decide), by decide⟩

theorem witness_UnwrittenOperandFaults_decode : ∃ s : State, s.params.Valid ∧ s.inLen.toNat = 5 ∧
    5 ≤ s.params.bufCap ∧ 4 * ((5 + 4) / 5) ≤ s.params.bufCap ∧ ¬ CharsWritten s ∧ 5 % 5 = 0 ∧ 5 * 0 < 5 ∧
    (∀ i, i < 5 * 0 → GoodEntry s i) ∧ 4 < 5 ∧ s.charBuf.read (5 * 0 + 4) = none :=
  ⟨{ withChars [0x48, 0x65, 0x6C, 0x6C] with inLen := 5 }, demo_valid, by decide, by decide, by decide,
    fun h => h 4 (by decide) (by decide), by decide, by decide, fun i hi => absurd hi (Nat.not_lt_zero i), by decide,
    by decide⟩

/-- The invariant holds of `demo` with an encode to come, and its step answers. -/
theorem witness_StepKeepsTheInvariant : ∃ s t : State, s.Inv ∧ step s = .next t :=
  ⟨{ withBytes [1, 2, 3] with pending := [.regWrite 0x00 0x03] }, _,
    { params := demo_valid
      errCode := by decide
      window := by decide
      chrOut := by decide
      outLen := by decide
      byteBufWf := by decide
      charBufWf := by decide
      byteBufWithin := by decide
      charBufWithin := by decide },
    rfl⟩

end Sys2Proof.Tests
end

section
/-! SUPPORT. The step's two cases (R198), and the silent host (R5, R31). -/

namespace Sys2Proof.Machine

/-- The first case of the step: no host action is to come, and the block idles. -/
theorem step_of_pending_nil {s : State} (h : s.pending = []) : step s = idle s := by
  simp only [step, h]

/-- The second case of the step: the host's next action is performed, and is no longer to come (R198). -/
theorem step_of_pending_cons {s : State} {a : HostAction} {rest : List HostAction} (h : s.pending = a :: rest) :
    step s = perform a (takeAction s rest) := by
  simp only [step, h]

/-- Idling changes no part of the state (log entry 6). -/
@[simp] theorem idle_eq_next (s : State) : idle s = .next s := rfl

/-- Settles O8: with nothing pending the step idles, and idling answers the state it was given. -/
theorem silentHostChangesNothing : Obligations.SilentHostChangesNothing := by
  intro s hsilent
  calc step s = idle s := step_of_pending_nil hsilent
    _ = .next s := idle_eq_next s

end Sys2Proof.Machine
end

section
/-! SUPPORT. The one list of the ways a command ends (R130, R170, R174), and what every command keeps. -/

namespace Sys2Proof.Machine

/-! ## How a command ends -/

/-- `t` is a state in which a command issued at `s` can end. The bounds are what the state's invariant needs: an output
fits the buffer it goes to (R65), and a `CHR_OUT` place holds a 7-bit code or what it held before (R28). -/
inductive CommandEnd (s : State) : State → Prop where
  /-- A command that is no buffer command fails, in no window but 0 (R170). -/
  | raised (kind : ErrKind) : CommandEnd s (raiseErr s kind 0)
  /-- A check of a buffer command fails (R173, R174). -/
  | checkFailed (kind : ErrKind) : CommandEnd s (raiseBufferErr s kind 0)
  /-- A decode meets a bad character in window `j` (R171, R173). -/
  | badWindow (j : Nat) : CommandEnd s (raiseBufferErr s .invalidCharacter j)
  /-- ENC4 or RDALPHA succeeds (R101, R107). -/
  | wroteChrOut (q : Quint Byte) (hq : ∀ c ∈ q.toList, c.toNat < 128 ∨ c ∈ s.chrOut.toList) :
      CommandEnd s (succeed { s with chrOut := q })
  /-- DEC5 succeeds (R106). -/
  | wroteDataOut (v : Word) : CommandEnd s (succeed { s with dataOut := v })
  /-- An encode succeeds (R130). -/
  | wroteChars (out : List Word) (hfit : out.length ≤ s.params.bufCap) : CommandEnd s (commitChars s out)
  /-- A decode succeeds (R130). -/
  | wroteBytes (out : List Byte) (hfit : out.length ≤ s.params.bufCap) : CommandEnd s (commitBytes s out)

/-- A 7-bit code in a `CHR_OUT` register leaves bit 7 zero (R28). -/
theorem toNat_setWidth_code_lt (c : Code) : (c.setWidth 8).toNat < 128 := by
  have := c.isLt
  simp only [BitVec.toNat_setWidth]
  omega

theorem execEnc4_ends {s t : State} (h : execEnc4 s = .next t) : CommandEnd s t := by
  obtain rfl := Host.Outcome.next.inj ((execEnc4_eq s).symm.trans h)
  refine .wroteChrOut _ fun c hc => .inl ?_
  rw [Quint.toList_map] at hc
  obtain ⟨code, -, rfl⟩ := List.mem_map.mp hc
  exact toNat_setWidth_code_lt code

theorem execDec5_ends {s t : State} (h : execDec5 s = .next t) : CommandEnd s t := by
  obtain ⟨-, rfl⟩ | ⟨v, -, rfl⟩ := execDec5_next h
  · exact .raised _
  · exact .wroteDataOut v

theorem execRdalpha_ends {s t : State} {a : Code} (h : execRdalpha a s = .next t) : CommandEnd s t := by
  obtain ⟨ha, rfl⟩ | ⟨-, rfl⟩ := execRdalpha_next h
  · refine .wroteChrOut _ fun c hc => ?_
    obtain rfl | hold := List.mem_cons.mp hc
    · exact .inl (toNat_setWidth_code_lt _)
    · exact .inr (List.mem_cons_of_mem _ hold)
  · exact .raised _

/-- The output of an encode whose tail is a whole block fits where R140's and R142's check says so. -/
theorem length_encodeBytes_of_blockTail {s : State} {tail : List Byte → List Word} {bs : List Byte}
    (htail : ∀ t : List Byte, t.length < 4 → (tail t).length = 5)
    (hread : s.byteBuf.readRange 0 s.inLen.toNat = some bs) :
    (encodeBytes s.params tail bs).length = 5 * ceil4 s.inLen.toNat := by
  obtain ⟨hlen, -⟩ := (Memory.readRange_eq_some _ _ _ _).mp hread
  rw [length_encodeBytes, hlen]
  intro _
  exact htail _ (by rw [length_listTail]; omega)

theorem execEncodeDefault_ends {s t : State} (h : execEncodeDefault s = .next t) : CommandEnd s t := by
  obtain rfl | ⟨-, hfit, bs, hread, rfl⟩ := execEncodeDefault_next h
  · exact .checkFailed _
  · have hlen := length_encodeBytes_of_blockTail (length_encTail s.params) hread
    exact .wroteChars _ (hlen.trans_le hfit)

theorem execEncodePadded_ends {s t : State} (h : execEncodePadded s = .next t) : CommandEnd s t := by
  obtain rfl | ⟨-, hfit, bs, hread, rfl⟩ := execEncodePadded_next h
  · exact .checkFailed _
  · have hlen := length_encodeBytes_of_blockTail (fun t _ => length_padTail s.params t) hread
    exact .wroteChars _ (hlen.trans_le hfit)

theorem execEncodeStrict_ends {s t : State} (h : execEncodeStrict s = .next t) : CommandEnd s t := by
  obtain rfl | ⟨-, rfl⟩ | ⟨-, hwhole, hfit, bs, hread, rfl⟩ := execEncodeStrict_next h
  · exact .checkFailed _
  · exact .checkFailed _
  · obtain ⟨hbs, -⟩ := (Memory.readRange_eq_some _ _ _ _).mp hread
    have hlen := length_encodeBytes s.params (fun _ => []) bs (fun hshort => absurd (hbs ▸ hwhole) hshort)
    exact .wroteChars _ (by simp only [ceil4] at hlen; omega)

theorem execDecodeStrict_ends {s t : State} (h : execDecodeStrict s = .next t) : CommandEnd s t := by
  obtain rfl | ⟨-, rfl⟩ | ⟨hcap, -, ⟨out, hrun, rfl⟩ | ⟨j, -, rfl⟩⟩ := execDecodeStrict_next h
  · exact .checkFailed _
  · exact .checkFailed _
  · have hlen := length_decodeWindows_full hrun
    exact .wroteBytes _ (by omega)
  · exact .badWindow j

theorem execDecodeDefault_ends {s t : State} (h : execDecodeDefault s = .next t) : CommandEnd s t := by
  obtain rfl | ⟨-, rfl⟩ | ⟨hcap, -, ⟨out, hrun, rfl⟩ | ⟨j, -, rfl⟩⟩ := execDecodeDefault_next h
  · exact .checkFailed _
  · exact .checkFailed _
  · have htail : ∀ w bs, decTail s.params w = some bs → bs.length ≤ 4 := fun w bs hw => by
      have := (length_decTail hw).1
      omega
    have hlen := length_decodeWindows_le htail hrun
    exact .wroteBytes _ (by omega)
  · exact .badWindow j

theorem execDecodePadded_ends {s t : State} (h : execDecodePadded s = .next t) : CommandEnd s t := by
  obtain rfl | ⟨-, hfit, cs, -, ⟨out, hrun, rfl⟩ | ⟨j, -, rfl⟩⟩ := execDecodePadded_next h
  · exact .checkFailed _
  · exact .wroteBytes _ ((length_decodeWindows_full hrun).trans_le hfit)
  · exact .badWindow j

/-- Every command that answers ends in one of the listed ways. -/
theorem exec_ends {i : Instr} {s t : State} (h : exec i s = .next t) : CommandEnd s t := by
  cases i with
  | enc4 => exact execEnc4_ends h
  | dec5 => exact execDec5_ends h
  | encodeDefault => exact execEncodeDefault_ends h
  | encodeStrict => exact execEncodeStrict_ends h
  | encodePadded => exact execEncodePadded_ends h
  | decodeDefault => exact execDecodeDefault_ends h
  | decodeStrict => exact execDecodeStrict_ends h
  | decodePadded => exact execDecodePadded_ends h
  | rdalpha a => exact execRdalpha_ends h

/-- An illegal word ends as a command that fails does (R76). -/
theorem issueCommand_ends {w : Word} {s t : State} (h : issueCommand w s = .next t) : CommandEnd s t := by
  unfold issueCommand at h
  cases hd : decode w with
  | command i => rw [hd] at h; exact exec_ends h
  | illegal why => rw [hd] at h; obtain rfl := Host.Outcome.next.inj h; exact .raised _

/-- No command writes the parameters, and so neither ROM (R20, R21). -/
theorem CommandEnd.params_eq {s t : State} (h : CommandEnd s t) : t.params = s.params := by
  cases h <;> rfl

end Sys2Proof.Machine
end

section
/-! SUPPORT. The invariant of the whole machine (`State.Inv`) is kept: by the parts of a command's end, by every command,
by every host action, and so by the step. -/

namespace Sys2Proof.Machine

/-! ## The parts of an end -/

/-- The part of the state the invariant speaks of. -/
def guardedPart (s : State) : Params × BitVec 3 × Word × Quint Byte × Word × Memory 8 × Memory 32 :=
  (s.params, s.err, s.errWin, s.chrOut, s.outLen, s.byteBuf, s.charBuf)

/-- A change outside that part keeps the invariant. -/
theorem State.Inv.of_guardedPart_eq {s t : State} (h : s.Inv) (heq : guardedPart t = guardedPart s) : t.Inv := by
  simp only [guardedPart, Prod.mk.injEq] at heq
  obtain ⟨hparams, herr, hwin, hchr, hlen, hbytes, hchars⟩ := heq
  obtain ⟨params, errCode, window, chrOut, outLen, byteBufWf, charBufWf, byteBufWithin, charBufWithin⟩ := h
  constructor <;> simp only [hparams, herr, hwin, hchr, hlen, hbytes, hchars] <;> assumption

/-- `ERR` is at most 4 (R25, I15). -/
theorem ErrKind.toNat_code_le (kind : ErrKind) : kind.code.toNat ≤ 4 := by
  cases kind <;> decide

/-- A report keeps the invariant when it names a window other than 0 for INVALID_CHARACTER only (R26). -/
theorem State.Inv.report {s : State} (h : s.Inv) (kind : ErrKind) (win : Nat)
    (hwin : kind = .invalidCharacter ∨ win = 0) : (report s kind win).Inv :=
  { h with
    errCode := kind.toNat_code_le
    window := fun hne => by
      obtain rfl | rfl := hwin
      · exact absurd rfl hne
      · rfl }

theorem State.Inv.succeed {s : State} (h : s.Inv) : (succeed s).Inv := h.report .success 0 (.inr rfl)

theorem State.Inv.raiseErr {s : State} (h : s.Inv) (kind : ErrKind) (win : Nat)
    (hwin : kind = .invalidCharacter ∨ win = 0) : (raiseErr s kind win).Inv := h.report kind win hwin

theorem State.Inv.raiseBufferErr {s : State} (h : s.Inv) (kind : ErrKind) (win : Nat)
    (hwin : kind = .invalidCharacter ∨ win = 0) : (raiseBufferErr s kind win).Inv :=
  { h.raiseErr kind win hwin with outLen := Nat.zero_le _ }

/-- The length of an output that fits the buffer fits it as `OUT_LEN` holds it (R29, R65). -/
theorem toNat_ofNat_le {n cap : Nat} (h : n ≤ cap) : (BitVec.ofNat 32 n).toNat ≤ cap :=
  (BitVec.toNat_ofNat n 32 ▸ Nat.mod_le n _).trans h

theorem State.Inv.commitChars {s : State} (h : s.Inv) {out : List Word} (hfit : out.length ≤ s.params.bufCap) :
    (commitChars s out).Inv :=
  { h.succeed with
    outLen := toNat_ofNat_le hfit
    charBufWf := Memory.wf_writeRange _ _ _ h.charBufWf
    charBufWithin := Memory.within_writeRange _ _ _ h.charBufWithin ((Nat.zero_add _).trans_le hfit) }

theorem State.Inv.commitBytes {s : State} (h : s.Inv) {out : List Byte} (hfit : out.length ≤ s.params.bufCap) :
    (commitBytes s out).Inv :=
  { h.succeed with
    outLen := toNat_ofNat_le hfit
    byteBufWf := Memory.wf_writeRange _ _ _ h.byteBufWf
    byteBufWithin := Memory.within_writeRange _ _ _ h.byteBufWithin ((Nat.zero_add _).trans_le hfit) }

/-- `CHR_OUT` may change to codes of 7 bits and to what it held (R28). -/
theorem State.Inv.setChrOut {s : State} (h : s.Inv) {q : Quint Byte}
    (hq : ∀ c ∈ q.toList, c.toNat < 128 ∨ c ∈ s.chrOut.toList) : State.Inv { s with chrOut := q } :=
  { h with chrOut := fun c hc => (hq c hc).elim id (h.chrOut c) }

/-! ## Commands -/

/-- However a command ends, the invariant is kept. -/
theorem CommandEnd.keeps_inv {s t : State} (hend : CommandEnd s t) (h : s.Inv) : t.Inv := by
  cases hend with
  | raised kind => exact h.raiseErr kind 0 (.inr rfl)
  | checkFailed kind => exact h.raiseBufferErr kind 0 (.inr rfl)
  | badWindow j => exact h.raiseBufferErr .invalidCharacter j (.inl rfl)
  | wroteChrOut q hq => exact (h.setChrOut hq).succeed
  | wroteDataOut v => exact State.Inv.succeed (h.of_guardedPart_eq rfl)
  | wroteChars out hfit => exact h.commitChars hfit
  | wroteBytes out hfit => exact h.commitBytes hfit

/-! ## Host actions -/

/-- A host register write reaches the operand registers only (R24, R53). -/
theorem guardedPart_writeReg (s : State) (v : Word) (r : Reg) : guardedPart (writeReg s v r) = guardedPart s := by
  cases r <;> rfl

theorem hostRegWrite_keeps_inv {offset : Nat} {v : Word} {s t : State} (h : s.Inv)
    (hstep : hostRegWrite offset v s = .next t) : t.Inv := by
  unfold hostRegWrite at hstep
  split at hstep
  · cases hstep
  split at hstep
  · obtain rfl := Host.Outcome.next.inj hstep
    exact h
  · exact (issueCommand_ends hstep).keeps_inv h
  · obtain rfl := Host.Outcome.next.inj hstep
    exact h.of_guardedPart_eq (guardedPart_writeReg _ _ _)

theorem hostRegRead_keeps_inv {offset : Nat} {s t : State} (h : s.Inv)
    (hstep : hostRegRead offset s = .next t) : t.Inv := by
  unfold hostRegRead at hstep
  split at hstep
  · cases hstep
  · obtain rfl := Host.Outcome.next.inj hstep
    exact h.of_guardedPart_eq rfl

/-- A host buffer write below the capacity keeps the buffer's form and bound (R30, R52). -/
theorem hostBufWrite_keeps_inv {b : Buffer} {i : Nat} {v : Word} {s t : State} (h : s.Inv)
    (hstep : hostBufWrite b i v s = .next t) : t.Inv := by
  unfold hostBufWrite at hstep
  split at hstep
  · cases hstep
  next hlt =>
  cases b with
  | byteBuf =>
    obtain rfl := Host.Outcome.next.inj hstep
    exact { h with
      byteBufWf := Memory.wf_write _ _ _ h.byteBufWf
      byteBufWithin := Memory.within_write _ _ h.byteBufWithin (Nat.lt_of_not_le hlt) }
  | charBuf =>
    obtain rfl := Host.Outcome.next.inj hstep
    exact { h with
      charBufWf := Memory.wf_write _ _ _ h.charBufWf
      charBufWithin := Memory.within_write _ _ h.charBufWithin (Nat.lt_of_not_le hlt) }

theorem hostBufRead_keeps_inv {b : Buffer} {i : Nat} {s t : State} (h : s.Inv)
    (hstep : hostBufRead b i s = .next t) : t.Inv := by
  unfold hostBufRead at hstep
  split at hstep
  · cases hstep
  split at hstep
  · cases hstep
  · obtain rfl := Host.Outcome.next.inj hstep
    exact h.of_guardedPart_eq rfl

/-- Reset's values meet the invariant for all legal parameters (R190). -/
theorem resetWith_inv {p : Params} (hp : p.Valid) : (State.resetWith p).Inv where
  params := hp
  errCode := Nat.zero_le _
  window := fun _ => rfl
  chrOut := by simp [State.resetWith, Quint.toList]
  outLen := Nat.zero_le _
  byteBufWf := rfl
  charBufWf := rfl
  byteBufWithin := rfl
  charBufWithin := rfl

theorem hostReset_keeps_inv {s t : State} (h : s.Inv) (hstep : hostReset s = .next t) : t.Inv := by
  obtain rfl := Host.Outcome.next.inj hstep
  exact (resetWith_inv h.params).of_guardedPart_eq rfl

theorem perform_keeps_inv {a : HostAction} {s t : State} (h : s.Inv) (hstep : perform a s = .next t) : t.Inv := by
  cases a with
  | regWrite offset v => exact hostRegWrite_keeps_inv h hstep
  | regRead offset => exact hostRegRead_keeps_inv h hstep
  | bufWrite b i v => exact hostBufWrite_keeps_inv h hstep
  | bufRead b i => exact hostBufRead_keeps_inv h hstep
  | reset => exact hostReset_keeps_inv h hstep

/-- Settles O44: a silent step changes nothing, and a host action keeps the invariant of the state it is taken from. -/
theorem stepKeepsTheInvariant : Obligations.StepKeepsTheInvariant := by
  intro s t h hstep
  cases hpend : s.pending with
  | nil =>
    rw [silentHostChangesNothing s hpend] at hstep
    exact Host.Outcome.next.inj hstep ▸ h
  | cons a rest =>
    rw [step_of_pending_cons hpend] at hstep
    have htaken : (takeAction s rest).Inv := h.of_guardedPart_eq rfl
    exact perform_keeps_inv htaken hstep

end Sys2Proof.Machine
end

section
/-! SUPPORT. The reverse-index ROM (R21): the fill pass builds the index the model uses, and 85 of its 128 entries are
valid. The mark is outside it (R22), and the parameters at reset are legal. -/

namespace Sys2Proof.Machine

/-! ## The fill pass -/

/-- One write of the fill pass, read back. -/
theorem buildIndexEntry_getElem? (p : Params) (t : Vector Byte 128) (v : Fin 85) (c : Code) :
    (buildIndexEntry p t v)[c.toNat]? = if alpha p v = c then some (BitVec.ofNat 8 v.val) else t[c.toNat]? := by
  rw [buildIndexEntry, Vector.getElem?_set]
  simp only [BitVec.toNat_inj]

/-- Writes for other characters leave an entry alone. -/
theorem foldl_buildIndexEntry_of_ne (p : Params) {c : Code} (vs : List (Fin 85)) (t : Vector Byte 128)
    (hne : ∀ v ∈ vs, alpha p v ≠ c) : (vs.foldl (buildIndexEntry p) t)[c.toNat]? = t[c.toNat]? := by
  induction vs generalizing t with
  | nil => rfl
  | cons u vs ih =>
    obtain ⟨hu, hvs⟩ := List.forall_mem_cons.mp hne
    rw [List.foldl_cons, ih _ hvs, buildIndexEntry_getElem?, if_neg hu]

/-- Once the pass has met a digit, the entry of its character holds it: no other digit writes there (R20). -/
theorem foldl_buildIndexEntry_of_mem {p : Params} (hp : p.Valid) {v : Fin 85} (vs : List (Fin 85))
    (t : Vector Byte 128) (hv : v ∈ vs) :
    (vs.foldl (buildIndexEntry p) t)[(alpha p v).toNat]? = some (BitVec.ofNat 8 v.val) := by
  induction vs generalizing t with
  | nil => cases hv
  | cons u vs ih =>
    rw [List.foldl_cons]
    by_cases hlater : v ∈ vs
    · exact ih _ hlater
    · obtain rfl := (List.mem_cons.mp hv).resolve_right hlater
      have hne : ∀ u ∈ vs, alpha p u ≠ alpha p v := fun u hu heq => hlater (alpha_injective hp heq ▸ hu)
      rw [foldl_buildIndexEntry_of_ne p vs _ hne, buildIndexEntry_getElem?, if_pos rfl]

/-- The fill pass and the search of the alphabet give the same ROM (R21). -/
theorem buildIndex_getElem? {p : Params} (hp : p.Valid) (c : Code) :
    (buildIndex p)[c.toNat]? = some (index p c) := by
  by_cases hc : c ∈ p.alphabet.toList
  · obtain ⟨v, rfl⟩ := mem_alphabet hc
    rw [index_alpha hp, buildIndex, foldl_buildIndexEntry_of_mem hp _ _ (List.mem_finRange v)]
  · have hne : ∀ v ∈ List.finRange 85, alpha p v ≠ c := fun v _ heq => hc (heq ▸ alpha_mem p v)
    rw [index_eq_invalid_of_notMem hc, buildIndex, foldl_buildIndexEntry_of_ne p _ _ hne]
    simp [c.isLt]

/-! ## The valid entries -/

/-- The entry of the character at place `v` of the alphabet is `v`. -/
theorem index_of_getElem? {p : Params} (hp : p.Valid) {v : Nat} {c : Code} (h : p.alphabet.toList[v]? = some c) :
    index p c = BitVec.ofNat 8 v := by
  obtain ⟨hlt, rfl⟩ := List.getElem?_eq_some_iff.mp h
  exact index_alpha hp ⟨v, by simpa using hlt⟩

/-- No digit is the sentinel (R21). -/
theorem digit_ne_invalid : ∀ v : Fin 85, BitVec.ofNat 8 v.val ≠ 0xFF := by decide

/-- An entry is valid exactly when its code is an alphabet character. -/
theorem index_ne_invalid_iff {p : Params} (hp : p.Valid) (c : Code) :
    index p c ≠ 0xFF ↔ c ∈ p.alphabet.toList := by
  constructor
  · exact not_imp_comm.mp index_eq_invalid_of_notMem
  · intro hc
    obtain ⟨v, rfl⟩ := mem_alphabet hc
    rw [index_alpha hp]
    exact digit_ne_invalid v

/-- The valid entries, listed by code, are the alphabet's codes in some order. -/
theorem validEntries_perm_alphabet {p : Params} (hp : p.Valid) :
    ((List.range 128).filter (fun c => index p (BitVec.ofNat 7 c) ≠ 0xFF)).Perm
      (p.alphabet.toList.map BitVec.toNat) := by
  have hcodes : (p.alphabet.toList.map BitVec.toNat).Nodup :=
    hp.distinct.map fun _ _ => BitVec.eq_of_toNat_eq
  rw [List.perm_ext_iff_of_nodup (List.nodup_range.filter _) hcodes]
  intro n
  simp only [List.mem_filter, List.mem_range, decide_eq_true_eq, index_ne_invalid_iff hp, List.mem_map]
  constructor
  · rintro ⟨hn, hmem⟩
    exact ⟨_, hmem, by simpa using hn⟩
  · rintro ⟨c, hmem, rfl⟩
    exact ⟨c.isLt, by simpa using hmem⟩

/-- "Exactly 85 entries are valid" (R21). -/
theorem length_validEntries {p : Params} (hp : p.Valid) :
    ((List.range 128).filter (fun c => index p (BitVec.ofNat 7 c) ≠ 0xFF)).length = 85 := by
  rw [(validEntries_perm_alphabet hp).length_eq, List.length_map, Vector.length_toList]

/-- "and 43 hold `INVALID`" (R21): the rest of the 128. -/
theorem length_invalidEntries {p : Params} (hp : p.Valid) :
    ((List.range 128).filter (fun c => index p (BitVec.ofNat 7 c) = 0xFF)).length = 43 := by
  have hsplit := List.length_eq_length_filter_add (l := List.range 128)
    (fun c => decide (index p (BitVec.ofNat 7 c) = 0xFF))
  have hvalid := length_validEntries hp
  simp only [List.length_range, ← decide_not] at hsplit
  simp only [ne_eq] at hvalid
  omega

/-- Settles O14: the fill pass agrees with the search, the valid entries are the alphabet's, and no command writes the
parameters that fix the ROM. -/
theorem indexRomContents : Obligations.IndexRomContents := by
  refine ⟨fun p hp => ⟨buildIndex_getElem? hp, fun _ _ => index_of_getElem? hp,
    fun _ => index_eq_invalid_of_notMem, length_validEntries hp, length_invalidEntries hp⟩, ?_⟩
  intro i s t c h
  rw [(exec_ends h).params_eq]

/-! ## The mark -/

/-- The chip's mark is outside the default alphabet whatever the open choice is (R22; log entry 3). -/
theorem chipMarkChar_notMem : chipMarkChar ∉ zeroMqAlphabet.toList := by
  unfold chipMarkChar
  split
  · decide
  · next hchoice => exact hchoice

/-- The parameters at reset are legal (R6, R20, R22; log entries 2 to 4). -/
theorem chipParams_valid : chipParams.Valid where
  distinct := (by decide : zeroMqAlphabet.toList.Nodup)
  printable := (by decide : ∀ c ∈ zeroMqAlphabet.toList, 0x20 ≤ c.toNat ∧ c.toNat ≤ 0x7E)
  classOrder := (by decide : zeroMqAlphabet.toList.Pairwise (fun a b => classRank a ≤ classRank b))
  markOutside := chipMarkChar_notMem
  capBound := Nat.mod_lt _ (Nat.two_pow_pos 32)

/-- Settles O15: the mark is outside the alphabet, so its entry is `INVALID` and it is no valid character. -/
theorem markIsNoCharacter : Obligations.MarkIsNoCharacter := by
  refine ⟨fun p hp => ⟨index_eq_invalid_of_notMem hp.markOutside, fun k hmark => ?_⟩, chipParams_valid⟩
  exact (decBlock_eq_none hp k).mpr ⟨markEntry p, hmark, mark_not_validChar hp⟩

end Sys2Proof.Machine
end

section
/-! SUPPORT. What a command reads: never the status (R32, R177), and beside its word and the parameters only its operand
registers and the buffer entries `[0..IN_LEN)` (R33). -/

namespace Sys2Proof.Machine

/-- Settles O39, by computation for each command: its checks and reads name neither register, and each of its ends is a
`report`, which overwrites both (R170), so the two sides unfold to one term. -/
theorem statusIsNeverRead : Obligations.StatusIsNeverRead := by
  intro i s e win
  cases i <;> rfl

/-! ## Reads of agreeing buffers -/

/-- A range read depends on the entries of its range only. -/
theorem Memory.readRange_congr {w : Nat} {m m' : Memory w} (i n : Nat)
    (hread : ∀ k, k < n → m.read (i + k) = m'.read (i + k)) : m.readRange i n = m'.readRange i n := by
  induction n generalizing i with
  | zero => rfl
  | succ n ih =>
    have hhead : m.read i = m'.read i := hread 0 (Nat.succ_pos n)
    have htail : m.readRange (i + 1) n = m'.readRange (i + 1) n :=
      ih (i + 1) fun k hk => by
        rw [Nat.add_assoc, Nat.add_comm 1 k]
        exact hread (k + 1) (Nat.succ_lt_succ hk)
    simp only [Memory.readRange, hhead, htail]

/-- A window depends on its five entries only. -/
theorem windowAt_congr {m m' : Memory 32} (j : Nat) (hread : ∀ q, q < 5 → m.read (5 * j + q) = m'.read (5 * j + q)) :
    windowAt m j = windowAt m' j := by
  have h0 := hread 0 (by decide)
  have h1 := hread 1 (by decide)
  have h2 := hread 2 (by decide)
  have h3 := hread 3 (by decide)
  have h4 := hread 4 (by decide)
  rw [Nat.add_zero] at h0
  simp only [windowAt, h0, h1, h2, h3, h4]

/-- A loop depends on the windows it runs over only. -/
theorem decodeWindows_congr {window window' : Nat → Option (Quint Word)} (full last : Quint Word → Option (List Byte))
    (k j : Nat) (hwin : ∀ i, j ≤ i → i < j + k → window i = window' i) :
    decodeWindows window full last k j = decodeWindows window' full last k j := by
  induction k generalizing j with
  | zero => rfl
  | succ k ih =>
    have hrest : decodeWindows window full last k (j + 1) = decodeWindows window' full last k (j + 1) :=
      ih (j + 1) fun i hlo hhi => hwin i (by omega) (by omega)
    rw [decodeWindows_succ, decodeWindows_succ, hwin j (by omega) (by omega), hrest]

/-- The loop of the decodes of whole windows depends on the input's entries only (R150, R151). -/
theorem decodeWindows_windowAt_congr {m m' : Memory 32} {n : Nat} (hread : ∀ k, k < n → m.read k = m'.read k)
    (full last : Quint Word → Option (List Byte)) :
    decodeWindows (windowAt m) full last (n / 5) 0 = decodeWindows (windowAt m') full last (n / 5) 0 :=
  decodeWindows_congr full last (n / 5) 0 fun i _ hi => windowAt_congr i fun q hq => hread (5 * i + q) (by omega)

/-! ## Outcomes that answer alike -/

/-- Where the first outcome is a next state, so is the second, with the results of command `i` the same (R33). -/
def AnswersAlike (i : Instr) (o o' : StepResult) : Prop :=
  ∀ t, o = .next t → ∃ t', o' = .next t' ∧ SameResults i t t'

theorem AnswersAlike.next {i : Instr} {t t' : State} (h : SameResults i t t') :
    AnswersAlike i (.next t) (.next t') := by
  intro u hu
  obtain rfl := Host.Outcome.next.inj hu
  exact ⟨t', rfl, h⟩

theorem AnswersAlike.fault {i : Instr} (r : Fault) (o : StepResult) : AnswersAlike i (.fault r) o := by
  intro u hu
  cases hu

/-- A check on what the two states share is decided alike. -/
theorem AnswersAlike.ite {i : Instr} {c : Prop} [Decidable c] {a a' b b' : StepResult} (ha : AnswersAlike i a a')
    (hb : AnswersAlike i b b') : AnswersAlike i (if c then a else b) (if c then a' else b') := by
  split
  · exact ha
  · exact hb

theorem sameResults_of_isEncode {i : Instr} (hi : isEncode i) {t t' : State} (herr : t.err = t'.err)
    (hwin : t.errWin = t'.errWin) (hlen : t.outLen = t'.outLen)
    (hread : ∀ k, k < t.outLen.toNat → t.charBuf.read k = t'.charBuf.read k) : SameResults i t t' := by
  obtain rfl | rfl | rfl := hi <;> exact ⟨herr, hwin, hlen, hread⟩

theorem sameResults_of_isDecode {i : Instr} (hi : isDecode i) {t t' : State} (herr : t.err = t'.err)
    (hwin : t.errWin = t'.errWin) (hlen : t.outLen = t'.outLen)
    (hread : ∀ k, k < t.outLen.toNat → t.byteBuf.read k = t'.byteBuf.read k) : SameResults i t t' := by
  obtain rfl | rfl | rfl := hi <;> exact ⟨herr, hwin, hlen, hread⟩

/-- A buffer command that fails gives no output entry: only the error is compared (R174). -/
theorem raiseBufferErr_alike {i : Instr} (hi : isEncode i ∨ isDecode i) (s s' : State) (kind : ErrKind) (j : Nat) :
    AnswersAlike i (.next (raiseBufferErr s kind j)) (.next (raiseBufferErr s' kind j)) := by
  obtain hi | hi := hi
  · exact .next (sameResults_of_isEncode hi rfl rfl rfl fun k hk => absurd hk (Nat.not_lt_zero k))
  · exact .next (sameResults_of_isDecode hi rfl rfl rfl fun k hk => absurd hk (Nat.not_lt_zero k))

/-- Whatever two buffers held, after the same output the entries below `OUT_LEN` are the output's (R130). -/
theorem Memory.read_writeRange_congr {w k : Nat} (m m' : Memory w) (out : List (BitVec w))
    (hk : k < (BitVec.ofNat 32 out.length).toNat) : (m.writeRange 0 out).read k = (m'.writeRange 0 out).read k := by
  have hout : k < out.length := hk.trans_le (toNat_ofNat_le le_rfl)
  rw [Memory.read_writeRange_zero, Memory.read_writeRange_zero, if_pos hout, if_pos hout]

theorem encodeBuffer_alike {i : Instr} (hi : isEncode i) {s s' : State} (hparams : s.params = s'.params)
    (hlen : s.inLen = s'.inLen) (hread : ∀ k, k < s.inLen.toNat → s.byteBuf.read k = s'.byteBuf.read k)
    (tail : List Byte → List Word) : AnswersAlike i (encodeBuffer s tail) (encodeBuffer s' tail) := by
  have hinput : s'.byteBuf.readRange 0 s'.inLen.toNat = s.byteBuf.readRange 0 s.inLen.toNat := by
    rw [← hlen]
    refine (Memory.readRange_congr 0 _ fun k hk => ?_).symm
    rw [Nat.zero_add]
    exact hread k hk
  rw [encodeBuffer, encodeBuffer, hinput, ← hparams]
  cases s.byteBuf.readRange 0 s.inLen.toNat with
  | none => exact .fault _ _
  | some bs =>
    exact .next (sameResults_of_isEncode hi rfl rfl rfl fun k hk => Memory.read_writeRange_congr _ _ _ hk)

theorem finishDecode_alike {i : Instr} (hi : isDecode i) (s s' : State) (run : DecodeRun) :
    AnswersAlike i (finishDecode s run) (finishDecode s' run) := by
  cases run with
  | output out =>
    exact .next (sameResults_of_isDecode hi rfl rfl rfl fun k hk => Memory.read_writeRange_congr _ _ _ hk)
  | badChar j => exact raiseBufferErr_alike (.inr hi) s s' .invalidCharacter j
  | unwritten => exact .fault _ _

/-! ## The commands -/

section
variable {s s' : State} (hparams : s.params = s'.params)
include hparams

theorem execEnc4_alike (hdata : s.dataIn = s'.dataIn) : AnswersAlike .enc4 (execEnc4 s) (execEnc4 s') := by
  rw [execEnc4_eq, execEnc4_eq, ← hparams, ← hdata]
  exact .next ⟨rfl, rfl, rfl⟩

theorem execDec5_alike (hchr : s.chrIn = s'.chrIn) : AnswersAlike .dec5 (execDec5 s) (execDec5 s') := by
  rw [execDec5, execDec5, ← hparams, ← hchr]
  cases decBlock s.params s.chrIn with
  | none => exact .next ⟨rfl, rfl, fun hok => absurd hok (by decide : ErrKind.invalidCharacter.code ≠ 0)⟩
  | some v => exact .next ⟨rfl, rfl, fun _ => rfl⟩

theorem execRdalpha_alike (a : Code) : AnswersAlike (.rdalpha a) (execRdalpha a s) (execRdalpha a s') := by
  rw [execRdalpha, execRdalpha, ← hparams]
  split
  · exact .next ⟨rfl, rfl, fun _ => rfl⟩
  · exact .next ⟨rfl, rfl, fun hok => absurd hok (by decide : ErrKind.illegalCommand.code ≠ 0)⟩

variable (hlen : s.inLen = s'.inLen)
include hlen

section
variable (hread : ∀ k, k < s.inLen.toNat → s.byteBuf.read k = s'.byteBuf.read k)
include hread

theorem execEncodeDefault_alike : AnswersAlike .encodeDefault (execEncodeDefault s) (execEncodeDefault s') := by
  have hi : isEncode .encodeDefault := .inl rfl
  rw [execEncodeDefault, execEncodeDefault, ← hparams, ← hlen]
  exact .ite (raiseBufferErr_alike (.inl hi) s s' _ _) (.ite (raiseBufferErr_alike (.inl hi) s s' _ _)
    (encodeBuffer_alike hi hparams hlen hread _))

theorem execEncodeStrict_alike : AnswersAlike .encodeStrict (execEncodeStrict s) (execEncodeStrict s') := by
  have hi : isEncode .encodeStrict := .inr (.inl rfl)
  rw [execEncodeStrict, execEncodeStrict, ← hparams, ← hlen]
  exact .ite (raiseBufferErr_alike (.inl hi) s s' _ _) (.ite (raiseBufferErr_alike (.inl hi) s s' _ _)
    (.ite (raiseBufferErr_alike (.inl hi) s s' _ _) (encodeBuffer_alike hi hparams hlen hread _)))

theorem execEncodePadded_alike : AnswersAlike .encodePadded (execEncodePadded s) (execEncodePadded s') := by
  have hi : isEncode .encodePadded := .inr (.inr rfl)
  rw [execEncodePadded, execEncodePadded, ← hparams, ← hlen]
  exact .ite (raiseBufferErr_alike (.inl hi) s s' _ _) (.ite (raiseBufferErr_alike (.inl hi) s s' _ _)
    (encodeBuffer_alike hi hparams hlen hread _))

end

variable (hread : ∀ k, k < s.inLen.toNat → s.charBuf.read k = s'.charBuf.read k)
include hread

theorem execDecodeDefault_alike : AnswersAlike .decodeDefault (execDecodeDefault s) (execDecodeDefault s') := by
  have hi : isDecode .decodeDefault := .inl rfl
  rw [execDecodeDefault, execDecodeDefault, ← hparams, ← hlen, decodeWindows_windowAt_congr hread]
  exact .ite (raiseBufferErr_alike (.inr hi) s s' _ _) (.ite (raiseBufferErr_alike (.inr hi) s s' _ _)
    (finishDecode_alike hi s s' _))

theorem execDecodeStrict_alike : AnswersAlike .decodeStrict (execDecodeStrict s) (execDecodeStrict s') := by
  have hi : isDecode .decodeStrict := .inr (.inl rfl)
  rw [execDecodeStrict, execDecodeStrict, ← hparams, ← hlen, decodeWindows_windowAt_congr hread]
  exact .ite (raiseBufferErr_alike (.inr hi) s s' _ _) (.ite (raiseBufferErr_alike (.inr hi) s s' _ _)
    (finishDecode_alike hi s s' _))

theorem execDecodePadded_alike : AnswersAlike .decodePadded (execDecodePadded s) (execDecodePadded s') := by
  have hi : isDecode .decodePadded := .inr (.inr rfl)
  have hinput : s.charBuf.readRange 0 s.inLen.toNat = s'.charBuf.readRange 0 s.inLen.toNat :=
    Memory.readRange_congr 0 _ fun k hk => by rw [Nat.zero_add]; exact hread k hk
  rw [execDecodePadded, execDecodePadded, ← hparams, ← hlen, ← hinput]
  refine .ite (raiseBufferErr_alike (.inr hi) s s' _ _) (.ite (raiseBufferErr_alike (.inr hi) s s' _ _) ?_)
  cases s.charBuf.readRange 0 s.inLen.toNat with
  | none => exact .fault _ _
  | some cs => exact finishDecode_alike hi s s' _

end

/-- Settles O41: each command, on states that agree on its operands, decides its checks alike, reads the same input and
gives the same output. -/
theorem resultDependsOnlyOnOperands : Obligations.ResultDependsOnlyOnOperands := by
  intro i s s' t hsame
  obtain ⟨hparams, hoperands⟩ := hsame
  have halike : AnswersAlike i (exec i s) (exec i s') := by
    cases i with
    | enc4 => exact execEnc4_alike hparams hoperands
    | dec5 => exact execDec5_alike hparams hoperands
    | encodeDefault => exact execEncodeDefault_alike hparams hoperands.1 hoperands.2
    | encodeStrict => exact execEncodeStrict_alike hparams hoperands.1 hoperands.2
    | encodePadded => exact execEncodePadded_alike hparams hoperands.1 hoperands.2
    | decodeDefault => exact execDecodeDefault_alike hparams hoperands.1 hoperands.2
    | decodeStrict => exact execDecodeStrict_alike hparams hoperands.1 hoperands.2
    | decodePadded => exact execDecodePadded_alike hparams hoperands.1 hoperands.2
    | rdalpha a => exact execRdalpha_alike hparams a
  exact halike t

end Sys2Proof.Machine
end

section
/-! SUPPORT. The host port (R50-R53): register accesses by R24's table of offsets, and accesses to buffer entries. -/

namespace Sys2Proof.Machine

/-! ## Registers -/

/-- The byte offset of a register, from 0x00 to 0x40 in R24's order. -/
def Reg.offset : Reg → Nat
  | .cmd => 0x00
  | .status => 0x04
  | .errWin => 0x08
  | .dataIn => 0x0C
  | .dataOut => 0x10
  | .chrIn0 => 0x14
  | .chrIn1 => 0x18
  | .chrIn2 => 0x1C
  | .chrIn3 => 0x20
  | .chrIn4 => 0x24
  | .chrOut0 => 0x28
  | .chrOut1 => 0x2C
  | .chrOut2 => 0x30
  | .chrOut3 => 0x34
  | .chrOut4 => 0x38
  | .inLen => 0x3C
  | .outLen => 0x40

/-- The offsets that are not reserved (R53). -/
def registerOffsets : List Nat :=
  [Reg.cmd, .status, .errWin, .dataIn, .dataOut, .chrIn0, .chrIn1, .chrIn2, .chrIn3, .chrIn4, .chrOut0, .chrOut1,
    .chrOut2, .chrOut3, .chrOut4, .inLen, .outLen].map Reg.offset

/-- The model finds each register at its offset. -/
theorem regAt_offset (r : Reg) : regAt r.offset = some r := by
  cases r <;> rfl

/-- The reserved offsets, as the branches that name a register compare them. -/
theorem notMem_registerOffsets_iff {offset : Nat} : offset ∉ registerOffsets ↔
    offset ≠ 0x00 ∧ offset ≠ 0x04 ∧ offset ≠ 0x08 ∧ offset ≠ 0x0C ∧ offset ≠ 0x10 ∧ offset ≠ 0x14 ∧ offset ≠ 0x18 ∧
      offset ≠ 0x1C ∧ offset ≠ 0x20 ∧ offset ≠ 0x24 ∧ offset ≠ 0x28 ∧ offset ≠ 0x2C ∧ offset ≠ 0x30 ∧
      offset ≠ 0x34 ∧ offset ≠ 0x38 ∧ offset ≠ 0x3C ∧ offset ≠ 0x40 := by
  simp [registerOffsets, Reg.offset]

/-- At every other offset it finds none. -/
theorem regAt_reserved {offset : Nat} (h : offset ∉ registerOffsets) : regAt offset = none := by
  simp only [notMem_registerOffsets_iff, ne_eq] at h
  simp only [regAt, h, if_false]

/-- Settles O10: both accesses check the offset before anything else, and the check refuses it. -/
theorem misalignedOffsetRefused : Obligations.MisalignedOffsetRefused := by
  intro s offset v rest hoff hpend
  obtain hread | hwrite := hpend
  · rw [step_of_pending_cons hread, perform, hostRegRead, if_pos hoff]
  · rw [step_of_pending_cons hwrite, perform, hostRegWrite, if_pos hoff]

/-- Settles O9: an offset is a register's, and then the access is that register's by computation, or it is reserved, and
then no branch of the statement's chain is taken. -/
theorem registerPort : Obligations.RegisterPort := by
  refine ⟨?read, ?write⟩
  case read =>
    intro s offset rest hpend halign
    rw [step_of_pending_cons hpend, perform, hostRegRead, if_neg (not_not_intro halign), regValue]
    by_cases hreg : offset ∈ registerOffsets
    · obtain ⟨r, -, rfl⟩ := List.mem_map.mp hreg
      rw [regAt_offset]
      cases r <;> rfl
    · rw [regAt_reserved hreg]
      simp only [notMem_registerOffsets_iff, ne_eq] at hreg
      simp only [hreg, if_false]
      rfl
  case write =>
    intro s offset v rest hpend halign hcmd
    rw [step_of_pending_cons hpend, perform, hostRegWrite, if_neg (not_not_intro halign)]
    by_cases hreg : offset ∈ registerOffsets
    · obtain ⟨r, -, rfl⟩ := List.mem_map.mp hreg
      rw [regAt_offset]
      cases r with
      | cmd => exact absurd rfl hcmd
      | _ => rfl
    · rw [regAt_reserved hreg]
      simp only [notMem_registerOffsets_iff, ne_eq] at hreg
      simp only [hreg, if_false]
      rfl

/-! ## Buffer entries -/

theorem hostBufWrite_byteBuf {s : State} {i : Nat} (hi : i < s.params.bufCap) (v : Word) :
    hostBufWrite .byteBuf i v s = .next { s with byteBuf := s.byteBuf.write i (v.setWidth 8) } :=
  if_neg (Nat.not_le.mpr hi)

theorem hostBufWrite_charBuf {s : State} {i : Nat} (hi : i < s.params.bufCap) (v : Word) :
    hostBufWrite .charBuf i v s = .next { s with charBuf := s.charBuf.write i v } :=
  if_neg (Nat.not_le.mpr hi)

theorem hostBufWrite_beyond {s : State} {i : Nat} (hi : s.params.bufCap ≤ i) (b : Buffer) (v : Word) :
    hostBufWrite b i v s = .refused (.indexOutOfRange b) :=
  if_pos hi

theorem hostBufRead_written {s : State} {b : Buffer} {i : Nat} {r : Reply} (hi : i < s.params.bufCap)
    (hentry : entryReply s b i = some r) : hostBufRead b i s = .next (reply s r) := by
  rw [hostBufRead, if_neg (Nat.not_le.mpr hi), hentry]

theorem hostBufRead_beyond {s : State} {i : Nat} (hi : s.params.bufCap ≤ i) (b : Buffer) :
    hostBufRead b i s = .refused (.indexOutOfRange b) :=
  if_pos hi

/-- Settles O11: each host action on a buffer by its rule, and a buffer write by the laws of a read after a write. -/
theorem bufferPort : Obligations.BufferPort := by
  refine ⟨?byteWrite, ?charWrite, ?byteRead, ?charRead, ?beyond⟩
  case byteWrite =>
    intro s i v rest hi hpend
    have hstep := (step_of_pending_cons hpend).trans (hostBufWrite_byteBuf (s := takeAction s rest) hi v)
    have hread := Memory.read_write_same s.byteBuf i (v.setWidth 8)
    rw [← BitVec.ofNat_toNat] at hread
    exact ⟨_, hstep, rfl, hread, fun k hk => Memory.read_write_other _ _ hk⟩
  case charWrite =>
    intro s i v rest hi hpend
    have hstep := (step_of_pending_cons hpend).trans (hostBufWrite_charBuf (s := takeAction s rest) hi v)
    exact ⟨_, hstep, rfl, Memory.read_write_same _ _ _, fun k hk => Memory.read_write_other _ _ hk⟩
  case byteRead =>
    intro s i x rest hi hpend hx
    have hentry : entryReply (takeAction s rest) .byteBuf i = some (.byte x) := congrArg (Option.map Reply.byte) hx
    exact (step_of_pending_cons hpend).trans (hostBufRead_written hi hentry)
  case charRead =>
    intro s i x rest hi hpend hx
    have hentry : entryReply (takeAction s rest) .charBuf i = some (.word x) := congrArg (Option.map Reply.word) hx
    exact (step_of_pending_cons hpend).trans (hostBufRead_written hi hentry)
  case beyond =>
    intro s b i v rest hi hpend
    obtain hread | hwrite := hpend
    · exact (step_of_pending_cons hread).trans (hostBufRead_beyond (s := takeAction s rest) hi b)
    · exact (step_of_pending_cons hwrite).trans (hostBufWrite_beyond (s := takeAction s rest) hi b v)

end Sys2Proof.Machine
end

section
/-! SUPPORT. The frame of every command (R24's column of writers, R54): which ways of ending are whose. -/

namespace Sys2Proof.Machine

/-! ## Whose end it is -/

/-- `t` is a state in which command `i` issued at `s` can end. `CommandEnd` bounds what is written; this says
by whom. -/
inductive EndsAs (s : State) : Instr → State → Prop where
  /-- ENC4 writes all of `CHR_OUT0..4` (R101). -/
  | enc4 (q : Quint Byte) : EndsAs s .enc4 (succeed { s with chrOut := q })
  /-- DEC5 succeeds (R106). -/
  | dec5 (v : Word) : EndsAs s .dec5 (succeed { s with dataOut := v })
  /-- RDALPHA writes `CHR_OUT0` alone (R107). -/
  | rdalpha (a : Code) (c : Byte) : EndsAs s (.rdalpha a) (succeed { s with chrOut := { s.chrOut with c0 := c } })
  /-- A command that is no buffer command fails (R174). -/
  | raised {i : Instr} (hi : isBufferCommand i = false) (kind : ErrKind) (win : Nat) : EndsAs s i (raiseErr s kind win)
  /-- A buffer command fails (R174). -/
  | bufferRaised {i : Instr} (hi : isBufferCommand i = true) (kind : ErrKind) (win : Nat) :
      EndsAs s i (raiseBufferErr s kind win)
  /-- An encode succeeds (R130). -/
  | encoded {i : Instr} (hi : isEncode i) (out : List Word) : EndsAs s i (commitChars s out)
  /-- A decode succeeds (R130). -/
  | decoded {i : Instr} (hi : isDecode i) (out : List Byte) : EndsAs s i (commitBytes s out)

/-- Every command that answers ends in one of its own ways. -/
theorem exec_endsAs {i : Instr} {s t : State} (h : exec i s = .next t) : EndsAs s i t := by
  cases i with
  | enc4 =>
    obtain rfl := Host.Outcome.next.inj ((execEnc4_eq s).symm.trans h)
    exact .enc4 _
  | dec5 =>
    obtain ⟨-, rfl⟩ | ⟨v, -, rfl⟩ := execDec5_next h
    · exact .raised rfl _ _
    · exact .dec5 v
  | encodeDefault =>
    obtain rfl | ⟨-, -, bs, -, rfl⟩ := execEncodeDefault_next h
    · exact .bufferRaised rfl _ _
    · exact .encoded (.inl rfl) _
  | encodeStrict =>
    obtain rfl | ⟨-, rfl⟩ | ⟨-, -, -, bs, -, rfl⟩ := execEncodeStrict_next h
    · exact .bufferRaised rfl _ _
    · exact .bufferRaised rfl _ _
    · exact .encoded (.inr (.inl rfl)) _
  | encodePadded =>
    obtain rfl | ⟨-, -, bs, -, rfl⟩ := execEncodePadded_next h
    · exact .bufferRaised rfl _ _
    · exact .encoded (.inr (.inr rfl)) _
  | decodeDefault =>
    obtain rfl | ⟨-, rfl⟩ | ⟨-, -, ⟨out, -, rfl⟩ | ⟨j, -, rfl⟩⟩ := execDecodeDefault_next h
    · exact .bufferRaised rfl _ _
    · exact .bufferRaised rfl _ _
    · exact .decoded (.inl rfl) out
    · exact .bufferRaised rfl _ j
  | decodeStrict =>
    obtain rfl | ⟨-, rfl⟩ | ⟨-, -, ⟨out, -, rfl⟩ | ⟨j, -, rfl⟩⟩ := execDecodeStrict_next h
    · exact .bufferRaised rfl _ _
    · exact .bufferRaised rfl _ _
    · exact .decoded (.inr (.inl rfl)) out
    · exact .bufferRaised rfl _ j
  | decodePadded =>
    obtain rfl | ⟨-, -, cs, -, ⟨out, -, rfl⟩ | ⟨j, -, rfl⟩⟩ := execDecodePadded_next h
    · exact .bufferRaised rfl _ _
    · exact .decoded (.inr (.inr rfl)) out
    · exact .bufferRaised rfl _ j
  | rdalpha a =>
    obtain ⟨-, rfl⟩ | ⟨-, rfl⟩ := execRdalpha_next h
    · exact .rdalpha a _
    · exact .raised rfl _ _

theorem isBufferCommand_of_isEncode {i : Instr} (hi : isEncode i) : isBufferCommand i = true := by
  obtain rfl | rfl | rfl := hi <;> rfl

theorem isBufferCommand_of_isDecode {i : Instr} (hi : isDecode i) : isBufferCommand i = true := by
  obtain rfl | rfl | rfl := hi <;> rfl

/-! ## What a command leaves unchanged -/

section
variable {s t : State} {i : Instr}

theorem EndsAs.dataOut_eq (h : EndsAs s i t) (hi : i ≠ .dec5) : t.dataOut = s.dataOut := by
  cases h with
  | dec5 => exact absurd rfl hi
  | _ => rfl

/-- Only ENC4 writes `CHR_OUT1..4` (R24). -/
theorem EndsAs.chrOut_eq_but_c0 (h : EndsAs s i t) (hi : i ≠ .enc4) :
    t.chrOut = { s.chrOut with c0 := t.chrOut.c0 } := by
  cases h with
  | enc4 => exact absurd rfl hi
  | _ => rfl

theorem EndsAs.chrOut_eq (h : EndsAs s i t) (hi : i ≠ .enc4) (hr : ∀ a, i ≠ .rdalpha a) :
    t.chrOut = s.chrOut := by
  cases h with
  | enc4 => exact absurd rfl hi
  | rdalpha a => exact absurd rfl (hr a)
  | _ => rfl

theorem EndsAs.outLen_eq (h : EndsAs s i t) (hi : isBufferCommand i = false) : t.outLen = s.outLen := by
  cases h with
  | bufferRaised hb => cases hi.symm.trans hb
  | encoded he => cases hi.symm.trans (isBufferCommand_of_isEncode he)
  | decoded hd => cases hi.symm.trans (isBufferCommand_of_isDecode hd)
  | _ => rfl

theorem EndsAs.charBuf_eq (h : EndsAs s i t) (hi : ¬ isEncode i) : t.charBuf = s.charBuf := by
  cases h with
  | encoded he => exact absurd he hi
  | _ => rfl

theorem EndsAs.byteBuf_eq (h : EndsAs s i t) (hi : ¬ isDecode i) : t.byteBuf = s.byteBuf := by
  cases h with
  | decoded hd => exact absurd hd hi
  | _ => rfl

/-- No command writes the parameters, an operand register or the host's side of the port (R24). -/
theorem CommandEnd.operands_eq (h : CommandEnd s t) :
    t.params = s.params ∧ t.dataIn = s.dataIn ∧ t.chrIn = s.chrIn ∧ t.inLen = s.inLen ∧ t.pending = s.pending ∧
      t.replies = s.replies := by
  cases h <;> exact ⟨rfl, rfl, rfl, rfl, rfl, rfl⟩

/-- An output that fits a buffer of legal capacity leaves the entries from its `OUT_LEN` on alone (R6, R54). -/
theorem Memory.read_writeRange_of_outLen_le {w cap k : Nat} (m : Memory w) {out : List (BitVec w)}
    (hfit : out.length ≤ cap) (hcap : cap < 2 ^ 32) (hk : (BitVec.ofNat 32 out.length).toNat ≤ k) :
    (m.writeRange 0 out).read k = m.read k := by
  rw [BitVec.toNat_ofNat, Nat.mod_eq_of_lt (hfit.trans_lt hcap)] at hk
  rw [Memory.read_writeRange_zero, if_neg (Nat.not_lt.mpr hk)]

theorem CommandEnd.charBuf_read_eq (h : CommandEnd s t) (hp : s.params.Valid) {k : Nat}
    (hk : t.outLen.toNat ≤ k) : t.charBuf.read k = s.charBuf.read k := by
  cases h with
  | wroteChars out hfit => exact Memory.read_writeRange_of_outLen_le _ hfit hp.capBound hk
  | _ => rfl

theorem CommandEnd.byteBuf_read_eq (h : CommandEnd s t) (hp : s.params.Valid) {k : Nat}
    (hk : t.outLen.toNat ≤ k) : t.byteBuf.read k = s.byteBuf.read k := by
  cases h with
  | wroteBytes out hfit => exact Memory.read_writeRange_of_outLen_le _ hfit hp.capBound hk
  | _ => rfl

end

/-- Settles O40: no end writes an operand, each result has its own writers, and an output that fits its buffer ends at
`OUT_LEN`. -/
theorem commandFrame : Obligations.CommandFrame := by
  intro i s t hp hexec
  have hend := exec_ends hexec
  have hends := exec_endsAs hexec
  obtain ⟨hparams, hdataIn, hchrIn, hinLen, hpending, hreplies⟩ := hend.operands_eq
  exact ⟨hparams, hdataIn, hchrIn, hinLen, hpending, hreplies, hends.dataOut_eq, hends.chrOut_eq_but_c0,
    hends.chrOut_eq, hends.outLen_eq, hends.charBuf_eq, hends.byteBuf_eq,
    fun _ _ => hend.charBuf_read_eq hp, fun _ _ => hend.byteBuf_read_eq hp⟩

end Sys2Proof.Machine
end

section
/-! SUPPORT. The command word (R71-R77): its layout and its fields are inverse to each other, and so are the encoder and
the decoder. The nine rows (R75) and the illegal words (R76) follow. -/

namespace Sys2Proof

/-! ## The layout and the fields (R71) -/

section
variable (op : BitVec 4) (var : BitVec 2) (aidx : Code)

@[simp] theorem opField_commandWord : opField (commandWord op var aidx) = op := by
  rw [opField_eq_iff, toNat_commandWord]
  omega

@[simp] theorem varField_commandWord : varField (commandWord op var aidx) = var := by
  rw [varField_eq_iff, toNat_commandWord]
  omega

@[simp] theorem res0Field_commandWord : res0Field (commandWord op var aidx) = 0 := by
  rw [res0Field_eq_iff, toNat_commandWord, BitVec.ofNat_eq_ofNat, BitVec.toNat_zero]
  omega

@[simp] theorem aidxField_commandWord : aidxField (commandWord op var aidx) = aidx := by
  rw [aidxField_eq_iff, toNat_commandWord]
  omega

@[simp] theorem res1Field_commandWord : res1Field (commandWord op var aidx) = 0 := by
  rw [res1Field_eq_iff, toNat_commandWord, BitVec.ofNat_eq_ofNat, BitVec.toNat_zero]
  omega

end

/-- A word whose reserved fields are 0 is laid out from its other three fields. -/
theorem commandWord_fields {w : Word} (hres0 : res0Field w = 0) (hres1 : res1Field w = 0) :
    commandWord (opField w) (varField w) (aidxField w) = w := by
  rw [res0Field_eq_iff, BitVec.ofNat_eq_ofNat, BitVec.toNat_zero] at hres0
  rw [res1Field_eq_iff, BitVec.ofNat_eq_ofNat, BitVec.toNat_zero] at hres1
  rw [← BitVec.toNat_inj, toNat_commandWord, toNat_opField, toNat_varField, toNat_aidxField]
  omega

/-! ## The decoder's three shapes

For a word whose reserved fields are 0 and whose `OP` is `op`, what each shape answers fixes the rest of the word. -/

section
variable {w : Word} {op : BitVec 4} (hw : commandWord op (varField w) (aidxField w) = w)
include hw

theorem word_of_decodePlain {i j : Instr} (h : decodePlain w i = .command j) : i = j ∧ commandWord op 0 0 = w := by
  rw [decodePlain] at h
  split_ifs at h with hvar haidx
  rw [not_not.mp hvar, not_not.mp haidx] at hw
  exact ⟨Decoded.command.inj h, hw⟩

theorem word_of_decodeVariant {a b c j : Instr} (h : decodeVariant w a b c = .command j) :
    a = j ∧ commandWord op 0 0 = w ∨ b = j ∧ commandWord op 1 0 = w ∨ c = j ∧ commandWord op 2 0 = w := by
  rw [decodeVariant] at h
  split_ifs at h with haidx hvar hvar hvar
  all_goals rw [hvar, not_not.mp haidx] at hw
  · exact .inl ⟨Decoded.command.inj h, hw⟩
  · exact .inr (.inl ⟨Decoded.command.inj h, hw⟩)
  · exact .inr (.inr ⟨Decoded.command.inj h, hw⟩)

theorem word_of_decodeRdalpha {j : Instr} (h : decodeRdalpha w = .command j) :
    ∃ a : Code, a.toNat < 85 ∧ .rdalpha a = j ∧ commandWord op 0 a = w := by
  rw [decodeRdalpha] at h
  split_ifs at h with hvar hidx
  rw [not_not.mp hvar] at hw
  exact ⟨aidxField w, hidx, Decoded.command.inj h, hw⟩

end

/-! ## The round trips -/

/-- Settles O1: the fields of a laid-out word are those it was laid out from, and the decoder looks at nothing else. -/
theorem encodeThenDecode : Obligations.EncodeThenDecode := by
  intro i hwf
  cases i with
  | rdalpha a =>
    have ha : a.toNat < 85 := of_decide_eq_true hwf
    simp [encode, decode, decodeRdalpha, ha]
  | _ => decide

/-- Settles O2: each answer of the decoder fixes the word's five fields, and the fields fix the word. -/
theorem decodedWordIsItsEncoding : Obligations.DecodedWordIsItsEncoding := by
  intro w i h
  rw [decode] at h
  split_ifs at h with hres hop hop hop hop hop
  all_goals
    obtain ⟨hres0, hres1⟩ := not_or.mp hres
    have hw := commandWord_fields (not_not.mp hres0) (not_not.mp hres1)
    rw [hop] at hw
  · obtain ⟨rfl, hword⟩ := word_of_decodePlain hw h
    exact ⟨rfl, hword⟩
  · obtain ⟨rfl, hword⟩ := word_of_decodePlain hw h
    exact ⟨rfl, hword⟩
  · obtain ⟨rfl, hword⟩ | ⟨rfl, hword⟩ | ⟨rfl, hword⟩ := word_of_decodeVariant hw h <;> exact ⟨rfl, hword⟩
  · obtain ⟨rfl, hword⟩ | ⟨rfl, hword⟩ | ⟨rfl, hword⟩ := word_of_decodeVariant hw h <;> exact ⟨rfl, hword⟩
  · obtain ⟨a, hidx, rfl, hword⟩ := word_of_decodeRdalpha hw h
    exact ⟨decide_eq_true hidx, hword⟩

/-- The legal words of a command, as numbers: its own encoding and no other (R75, R77). -/
theorem decode_eq_command_iff (w : Word) (i : Instr) :
    decode w = .command i ↔ i.wellFormed = true ∧ w.toNat = (encode i).toNat := by
  rw [BitVec.toNat_inj]
  constructor
  · intro h
    obtain ⟨hwf, hw⟩ := decodedWordIsItsEncoding w i h
    exact ⟨hwf, hw.symm⟩
  · rintro ⟨hwf, rfl⟩
    exact encodeThenDecode i hwf

/-! ## The legal words (R75) -/

/-- The commands of R75's eight rows of one word. -/
def singleWordCommands : List Instr :=
  [.enc4, .dec5, .encodeDefault, .encodeStrict, .encodePadded, .decodeDefault, .decodeStrict, .decodePadded]

/-- The commands of R75's ninth row, `RDALPHA` at its 85 indices. -/
def rdalphaCommands : List Instr := (List.range 85).map fun a => Instr.rdalpha (BitVec.ofNat 7 a)

/-- The commands of all nine rows (R75). -/
def legalCommands : List Instr := singleWordCommands ++ rdalphaCommands

theorem mem_rdalphaCommands (i : Instr) : i ∈ rdalphaCommands ↔ ∃ a : Code, a.toNat < 85 ∧ i = .rdalpha a := by
  simp only [rdalphaCommands, List.mem_map, List.mem_range]
  constructor
  · rintro ⟨n, hn, rfl⟩
    exact ⟨_, (BitVec.toNat_ofNat n 7).trans_lt ((Nat.mod_le n _).trans_lt hn), rfl⟩
  · rintro ⟨a, ha, rfl⟩
    exact ⟨a.toNat, ha, congrArg _ ((BitVec.ofNat_toNat 7 a).trans (BitVec.setWidth_eq a))⟩

theorem mem_legalCommands (i : Instr) : i ∈ legalCommands ↔ i.wellFormed = true := by
  rw [legalCommands, List.mem_append, mem_rdalphaCommands]
  cases i <;> simp [singleWordCommands, Instr.wellFormed]

/-- The indices of `RDALPHA`'s commands are different 7-bit codes, as they are below 2^7. -/
theorem nodup_rdalphaCommands : rdalphaCommands.Nodup := by
  refine List.nodup_range.map_on fun a ha b hb hab => ?_
  rw [List.mem_range] at ha hb
  have hnum := congrArg BitVec.toNat (Instr.rdalpha.inj hab)
  rw [BitVec.toNat_ofNat, BitVec.toNat_ofNat] at hnum
  omega

theorem nodup_legalCommands : legalCommands.Nodup := by
  refine List.nodup_append'.mpr ⟨by decide, nodup_rdalphaCommands, fun i hi hr => ?_⟩
  obtain ⟨a, -, rfl⟩ := (mem_rdalphaCommands i).mp hr
  simp [singleWordCommands] at hi

/-- Two legal commands with one word are one command, as the decoder tells them apart. -/
theorem encode_inj_of_wellFormed {i j : Instr} (hi : i.wellFormed = true) (hj : j.wellFormed = true)
    (h : encode i = encode j) : i = j :=
  Decoded.command.inj <| calc
    .command i = decode (encode i) := (encodeThenDecode i hi).symm
    _ = decode (encode j) := by rw [h]
    _ = .command j := encodeThenDecode j hj

theorem mem_map_encode_legalCommands (w : Word) :
    w ∈ legalCommands.map encode ↔ ∃ i, decode w = .command i := by
  simp only [List.mem_map, mem_legalCommands, decode_eq_command_iff, BitVec.toNat_inj, eq_comm]

/-- Settles O3: a row's word is its command's encoding, and the 93 legal commands have as many words. -/
theorem opcodeMapRows : Obligations.OpcodeMapRows := by
  refine ⟨fun w => ?_, legalCommands.map encode, ?_, ?_, mem_map_encode_legalCommands⟩
  · simp [decode_eq_command_iff, toNat_encode, Instr.wellFormed]
  · rw [List.length_map]
    rfl
  · exact nodup_legalCommands.map_on fun i hi j hj =>
      encode_inj_of_wellFormed ((mem_legalCommands i).mp hi) ((mem_legalCommands j).mp hj)

/-! ## The illegal words (R76) -/

theorem decodePlain_illegal_iff (w : Word) (i : Instr) : (∃ why, decodePlain w i = .illegal why) ↔
    w.toNat / 16 % 4 ≠ 0 ∨ w.toNat / 256 % 128 ≠ 0 := by
  rw [decodePlain_eq]
  split_ifs <;> simp [*]

theorem decodeVariant_illegal_iff (w : Word) (a b c : Instr) : (∃ why, decodeVariant w a b c = .illegal why) ↔
    w.toNat / 16 % 4 = 3 ∨ w.toNat / 256 % 128 ≠ 0 := by
  rw [decodeVariant_eq]
  split_ifs with haidx hvar0 hvar1 hvar2
  · exact iff_of_true ⟨_, rfl⟩ (.inr haidx)
  · simp [haidx, hvar0]
  · simp [haidx, hvar1]
  · simp [haidx, hvar2]
  · exact iff_of_true ⟨_, rfl⟩ (by omega)

theorem decodeRdalpha_illegal_iff (w : Word) : (∃ why, decodeRdalpha w = .illegal why) ↔
    w.toNat / 16 % 4 ≠ 0 ∨ 85 ≤ w.toNat / 256 % 128 := by
  rw [decodeRdalpha_eq]
  split_ifs with hvar haidx
  · exact iff_of_true ⟨_, rfl⟩ (.inl hvar)
  · simp [hvar, haidx]
  · exact iff_of_true ⟨_, rfl⟩ (.inr (Nat.le_of_not_lt haidx))

/-- Settles O4: the decoder's branches, each with the fields that its shape of command refuses. -/
theorem illegalWordConditions : Obligations.IllegalWordConditions := by
  rintro w op var res0 aidx res1 rfl rfl rfl rfl rfl
  rw [decode_eq]
  split_ifs with hres hop hop hop hop hop
  · exact iff_of_true ⟨_, rfl⟩ (by omega)
  · rw [decodePlain_illegal_iff]
    omega
  · rw [decodePlain_illegal_iff]
    omega
  · rw [decodeVariant_illegal_iff]
    omega
  · rw [decodeVariant_illegal_iff]
    omega
  · rw [decodeRdalpha_illegal_iff]
    omega
  · exact iff_of_true ⟨_, rfl⟩ (by omega)

/-- R76's words, as numbers outside R75's rows, decode to no command. -/
theorem decode_illegal_of_notMem_rows {w : Word} (hrows : w.toNat ∉ [0x01, 0x02, 0x03, 0x13, 0x23, 0x04, 0x14, 0x24])
    (hrdalpha : ∀ a, a < 85 → w.toNat ≠ 0x05 + 2 ^ 8 * a) : ∃ why, decode w = .illegal why := by
  cases hdec : decode w with
  | illegal why => exact ⟨why, rfl⟩
  | command i =>
    obtain ⟨hwf, hw⟩ := (decode_eq_command_iff w i).mp hdec
    rw [toNat_encode] at hw
    cases i with
    | rdalpha a => exact absurd hw (hrdalpha a.toNat (of_decide_eq_true hwf))
    | _ => simp [hw] at hrows

/-- Settles O6: the decoder computes each word's answer. -/
theorem sampleWordsDecode : Obligations.SampleWordsDecode :=
  ⟨by decide, by decide, by decide, by decide, by decide, by decide, by decide⟩

end Sys2Proof

namespace Sys2Proof.Machine

/-! ## The step that issues a command (R70) -/

/-- The host's write to `CMD` issues the word written. -/
theorem step_of_cmdWrite {s : State} {w : Word} {rest : List HostAction} (h : s.pending = .regWrite 0x00 w :: rest) :
    step s = issueCommand w (takeAction s rest) :=
  step_of_pending_cons h

theorem issueCommand_of_command {w : Word} {i : Instr} (h : decode w = .command i) (s : State) :
    issueCommand w s = exec i s := by
  rw [issueCommand, h]

theorem issueCommand_of_illegal {w : Word} {why : IllegalWord} (h : decode w = .illegal why) (s : State) :
    issueCommand w s = .next (raiseErr s .illegalCommand 0) := by
  rw [issueCommand, h]

/-- Settles O5: a word outside the rows is illegal, and the step reports that and nothing else. -/
theorem illegalCommandEffect : Obligations.IllegalCommandEffect := by
  intro s w rest hpend hrows hrdalpha
  obtain ⟨why, hwhy⟩ := decode_illegal_of_notMem_rows hrows hrdalpha
  calc step s = issueCommand w (takeAction s rest) := step_of_cmdWrite hpend
    _ = .next (raiseErr (takeAction s rest) .illegalCommand 0) := issueCommand_of_illegal hwhy _
    _ = .next { s with pending := rest, err := 3, errWin := 0 } := rfl

/-- Settles O7: the write to `CMD` issues the word, and issuing it runs what it decodes to. -/
theorem stepRunsTheDecodedCommand : Obligations.StepRunsTheDecodedCommand := by
  intro s w i rest hpend hdec
  calc step s = issueCommand w (takeAction s rest) := step_of_cmdWrite hpend
    _ = exec i { s with pending := rest } := issueCommand_of_command hdec _

end Sys2Proof.Machine
end

section
/-! SUPPORT. Digit tuples as numbers: a block's five digits are the base-85 representation of its value, and a number
below `85 ^ 5` is the value of one tuple only (R100, R102, R105). -/

namespace Sys2Proof.Machine

/-! ## Tuples and values -/

/-- The value of a tuple of digits (R103 step 3). -/
def tupleValue (d : Quint (Fin 85)) : Nat := digitsValue d.c0 d.c1 d.c2 d.c3 d.c4

/-- The base-85 digits of a number, the highest power dropped (R100). -/
def digitTuple (n : Nat) : Quint (Fin 85) :=
  ⟨⟨digitOf n 0, digitOf_lt n 0⟩, ⟨digitOf n 1, digitOf_lt n 1⟩, ⟨digitOf n 2, digitOf_lt n 2⟩,
    ⟨digitOf n 3, digitOf_lt n 3⟩, ⟨digitOf n 4, digitOf_lt n 4⟩⟩

theorem tupleValue_lt (d : Quint (Fin 85)) : tupleValue d < 85 ^ 5 :=
  digitsValue_le d.c0.isLt d.c1.isLt d.c2.isLt d.c3.isLt d.c4.isLt

theorem tupleValue_digitTuple {n : Nat} (hn : n < 85 ^ 5) : tupleValue (digitTuple n) = n :=
  digitsValue_digitOf hn

/-- A tuple is told by its five digits as numbers. -/
theorem digits_ext {d e : Quint (Fin 85)} (h : d.toList.map Fin.val = e.toList.map Fin.val) : d = e :=
  Quint.toList_injective (List.map_injective_iff.mpr Fin.val_injective h)

theorem digitTuple_tupleValue (d : Quint (Fin 85)) : digitTuple (tupleValue d) = d :=
  digits_ext (digitOf_digitsValue d.c0.isLt d.c1.isLt d.c2.isLt d.c3.isLt d.c4.isLt)

/-- A base-85 representation is the only one (R105). -/
theorem tupleValue_injective {d e : Quint (Fin 85)} (h : tupleValue d = tupleValue e) : d = e := by
  rw [← digitTuple_tupleValue d, h, digitTuple_tupleValue]

/-! ## The encoder's digits -/

/-- Five digits reach every 32-bit value. -/
theorem toNat_lt_pow_85 (w : Word) : w.toNat < 85 ^ 5 := w.isLt.trans (by decide)

theorem encDigits_eq_digitTuple (w : Word) : encDigits w = digitTuple w.toNat :=
  digits_ext (encDigits_toList w)

theorem tupleValue_encDigits (w : Word) : tupleValue (encDigits w) = w.toNat := by
  rw [encDigits_eq_digitTuple, tupleValue_digitTuple (toNat_lt_pow_85 w)]

/-- A word's digits are the one tuple whose value is the word (R102). -/
theorem encDigits_eq_iff (w : Word) (d : Quint (Fin 85)) : encDigits w = d ↔ tupleValue d = w.toNat := by
  constructor
  · rintro rfl
    exact tupleValue_encDigits w
  · intro h
    exact tupleValue_injective ((tupleValue_encDigits w).trans h.symm)

/-- A 32-bit value is below `83 * 85 ^ 4` (R102). -/
theorem encDigits_top_le (w : Word) : (encDigits w).c0.val ≤ 82 := by
  have hvalue : (encDigits w).c0.val * 85 ^ 4 ≤ w.toNat := by
    rw [← tupleValue_encDigits w, tupleValue, digitsValue]
    omega
  have := w.isLt
  omega

/-! ## Values of 2^32 and more -/

/-- Five digits reach less than twice `2 ^ 32`, so the truncation takes `2 ^ 32` off at most once (R105). -/
theorem mod_two_pow_of_lt {n : Nat} (hn : n < 85 ^ 5) : n % 2 ^ 32 = n ∨ n % 2 ^ 32 + 2 ^ 32 = n := by
  omega

/-- Where the value is `2 ^ 32` or more, the truncation takes `2 ^ 32` off (R105). -/
theorem toNat_ofNat_of_overflow {n : Nat} (hover : 2 ^ 32 ≤ n) (hn : n < 85 ^ 5) :
    (BitVec.ofNat 32 n).toNat = n - 2 ^ 32 := by
  rw [BitVec.toNat_ofNat]
  omega

/-- The truncation keeps a value exactly when it is canonical (R102, R105). -/
theorem eq_toNat_ofNat_iff (n : Nat) : n = (BitVec.ofNat 32 n).toNat ↔ n < 2 ^ 32 := by
  rw [BitVec.toNat_ofNat]
  omega

/-! ## The reverse digit order -/

/-- Numbers that agree modulo 3 do not differ by `2 ^ 32`, which is no multiple of 3. -/
theorem eq_of_mod_three {m n : Nat} (hthree : m % 3 = n % 3) (h : n = m ∨ n + 2 ^ 32 = m) : m = n := by
  omega

/-- As `85` is 1 modulo 3, a tuple and its reverse have the same value modulo 3. -/
theorem digitsValue_reverse_mod_three (d0 d1 d2 d3 d4 : Nat) :
    digitsValue d4 d3 d2 d1 d0 % 3 = digitsValue d0 d1 d2 d3 d4 % 3 := by
  simp only [digitsValue]
  omega

/-- A word whose digits in reverse order have its value modulo `2 ^ 32` is a palindrome (R108, law 4). -/
theorem palindrome_of_reverse_mod {n : Nat} (hn : n < 85 ^ 5)
    (h : digitsValue (digitOf n 4) (digitOf n 3) (digitOf n 2) (digitOf n 1) (digitOf n 0) % 2 ^ 32 = n) :
    digitOf n 0 = digitOf n 4 ∧ digitOf n 1 = digitOf n 3 := by
  have htruncated := mod_two_pow_of_lt (digitsValue_le (digitOf_lt n 4) (digitOf_lt n 3) (digitOf_lt n 2)
    (digitOf_lt n 1) (digitOf_lt n 0))
  rw [h] at htruncated
  have hthree := digitsValue_reverse_mod_three (digitOf n 0) (digitOf n 1) (digitOf n 2) (digitOf n 3) (digitOf n 4)
  rw [digitsValue_digitOf hn] at hthree
  have hdigits := digitOf_digitsValue (digitOf_lt n 4) (digitOf_lt n 3) (digitOf_lt n 2) (digitOf_lt n 1)
    (digitOf_lt n 0)
  rw [eq_of_mod_three hthree htruncated] at hdigits
  obtain ⟨houter, hinner, -⟩ := (List.cons.inj hdigits).imp id List.cons.inj
  exact ⟨houter, hinner⟩

end Sys2Proof.Machine
end

section
/-! SUPPORT. The block cores between words, digits and characters, and the commands ENC4, DEC5 and RDALPHA
(40_core_codec.md). -/

namespace Sys2Proof.Machine

/-! ## Blocks of characters -/

/-- The lane values of a tuple's characters (R20, R28). -/
def tupleChars (p : Params) (d : Quint (Fin 85)) : Quint Word := (d.map (alpha p)).map (fun c => c.setWidth 32)

theorem encChars_setWidth (p : Params) (w : Word) :
    (encChars p w).map (fun c => c.setWidth 32) = tupleChars p (encDigits w) := rfl

/-- Five codes that are the characters of five numbers are the characters of a tuple of digits. -/
theorem exists_tuple_of_charOfDigit {p : Params} {k : Quint Word} {d0 d1 d2 d3 d4 : Nat}
    (h0 : charOfDigit p d0 = some k.c0) (h1 : charOfDigit p d1 = some k.c1) (h2 : charOfDigit p d2 = some k.c2)
    (h3 : charOfDigit p d3 = some k.c3) (h4 : charOfDigit p d4 = some k.c4) :
    ∃ d, tupleChars p d = k ∧ tupleValue d = digitsValue d0 d1 d2 d3 d4 := by
  obtain ⟨l0, e0⟩ := charOfDigit_eq_some.mp h0
  obtain ⟨l1, e1⟩ := charOfDigit_eq_some.mp h1
  obtain ⟨l2, e2⟩ := charOfDigit_eq_some.mp h2
  obtain ⟨l3, e3⟩ := charOfDigit_eq_some.mp h3
  obtain ⟨l4, e4⟩ := charOfDigit_eq_some.mp h4
  refine ⟨⟨⟨d0, l0⟩, ⟨d1, l1⟩, ⟨d2, l2⟩, ⟨d3, l3⟩, ⟨d4, l4⟩⟩, Quint.toList_injective ?_, rfl⟩
  rw [Quint.toList, Quint.toList, e0, e1, e2, e3, e4]
  rfl

/-- The decoder core on the characters of a tuple (R103, R105). -/
theorem decBlock_tupleChars {p : Params} (hp : p.Valid) (d : Quint (Fin 85)) :
    decBlock p (tupleChars p d) = some (BitVec.ofNat 32 (tupleValue d)) :=
  decBlock_eq hp (charOfDigit_lt p d.c0) (charOfDigit_lt p d.c1) (charOfDigit_lt p d.c2) (charOfDigit_lt p d.c3)
    (charOfDigit_lt p d.c4)

/-- Law 1 of R108: a word's value needs no truncation. -/
theorem decBlock_encChars {p : Params} (hp : p.Valid) (w : Word) :
    decBlock p ((encChars p w).map (fun c => c.setWidth 32)) = some w := by
  rw [encChars_setWidth, decBlock_tupleChars hp, tupleValue_encDigits, BitVec.ofNat_toNat, BitVec.setWidth_eq]

/-- Distinct tuples have distinct characters (R20). -/
theorem tupleChars_injective {p : Params} (hp : p.Valid) {d e : Quint (Fin 85)}
    (h : tupleChars p d = tupleChars p e) : d = e := by
  have hchar : Function.Injective fun v : Fin 85 => (alpha p v).setWidth 32 :=
    fun _ _ heq => alpha_injective hp (setWidth_code_injective heq)
  have hlist := congrArg Quint.toList h
  simp only [tupleChars, Quint.toList_map, List.map_map] at hlist
  exact Quint.toList_injective (List.map_injective_iff.mpr hchar hlist)

/-- The one word that can encode to a block is the block's value. -/
theorem encChars_eq_tupleChars_iff {p : Params} (hp : p.Valid) (w : Word) (d : Quint (Fin 85)) :
    (encChars p w).map (fun c => c.setWidth 32) = tupleChars p d ↔ tupleValue d = w.toNat := by
  rw [encChars_setWidth, ← encDigits_eq_iff]
  exact ⟨tupleChars_injective hp, congrArg (tupleChars p)⟩

/-- A block is the encoding of its decoded value exactly when it is canonical (R108, law 2). -/
theorem encChars_ofNat_eq_iff {p : Params} (hp : p.Valid) (d : Quint (Fin 85)) :
    (encChars p (BitVec.ofNat 32 (tupleValue d))).map (fun c => c.setWidth 32) = tupleChars p d ↔
      tupleValue d < 2 ^ 32 := by
  rw [encChars_eq_tupleChars_iff hp, eq_toNat_ofNat_iff]

/-- Encoding is one-to-one, as decoding undoes it (R108, law 3). -/
theorem encChars_injective {p : Params} (hp : p.Valid) {w w' : Word} (h : encChars p w = encChars p w') :
    w = w' := by
  have hdec := decBlock_encChars hp w
  rw [h, decBlock_encChars hp w'] at hdec
  exact (Option.some.inj hdec).symm

/-- A canonical block is the encoding of what it decodes to. -/
theorem encChars_of_decBlock_canonical {p : Params} (hp : p.Valid) {d : Quint (Fin 85)} {v : Word}
    (hcanon : tupleValue d < 2 ^ 32) (h : decBlock p (tupleChars p d) = some v) :
    (encChars p v).map (fun c => c.setWidth 32) = tupleChars p d := by
  rw [decBlock_tupleChars hp] at h
  obtain rfl := Option.some.inj h
  exact (encChars_ofNat_eq_iff hp d).mpr hcanon

/-- The decoder core on a block in reverse order: the digits change places. -/
theorem decBlock_of_toList_reverse {p : Params} (hp : p.Valid) {k : Quint Word} {d : Quint (Fin 85)}
    (hk : k.toList = (tupleChars p d).toList.reverse) :
    decBlock p k = some (BitVec.ofNat 32 (digitsValue d.c4 d.c3 d.c2 d.c1 d.c0)) := by
  have hrev : k = tupleChars p ⟨d.c4, d.c3, d.c2, d.c1, d.c0⟩ := Quint.toList_injective hk
  rw [hrev]
  exact decBlock_tupleChars hp _

/-- A block whose reverse decodes to its own word is a palindrome (R108, law 4). -/
theorem palindrome_of_decBlock_reverse {p : Params} (hp : p.Valid) {w : Word} {k : Quint Word}
    (hk : k.toList = ((encChars p w).map (fun c => c.setWidth 32)).toList.reverse) (h : decBlock p k = some w) :
    digitOf w.toNat 0 = digitOf w.toNat 4 ∧ digitOf w.toNat 1 = digitOf w.toNat 3 := by
  rw [encChars_setWidth, encDigits_eq_digitTuple] at hk
  rw [decBlock_of_toList_reverse hp hk] at h
  have hmod := congrArg BitVec.toNat (Option.some.inj h)
  rw [BitVec.toNat_ofNat] at hmod
  exact palindrome_of_reverse_mod (toNat_lt_pow_85 w) hmod

/-! ## The statements about the cores -/

/-- Settles O16: a word's digits are the one tuple of its value, so the tuples emitted are those below `2 ^ 32`. -/
theorem encoderRange : Obligations.EncoderRange := by
  refine ⟨?_, ?_, fun d => ⟨?_, fun hd => ?_⟩⟩
  · rintro w _ rfl
    exact ⟨tupleValue_encDigits w, encDigits_top_le w⟩
  · intro p w c hc
    rw [encChars, Quint.toList_map] at hc
    obtain ⟨v, -, rfl⟩ := List.mem_map.mp hc
    exact alpha_mem p v
  · rintro ⟨w, rfl⟩
    exact (tupleValue_encDigits w).trans_lt w.isLt
  · exact ⟨BitVec.ofNat 32 (tupleValue d), (encDigits_eq_iff _ d).mpr ((eq_toNat_ofNat_iff _).mpr hd)⟩

/-- The two ways a code is rejected: at 128 or more no lookup is made (R23), and below it the entry decides (R104). -/
theorem not_validChar_iff {p : Params} (hp : p.Valid) (c : Word) :
    ¬ ValidChar p c ↔ 128 ≤ c.toNat ∨ index p (BitVec.ofNat 7 c.toNat) = 0xFF := by
  rw [← lookup_eq_none hp, lookup, BitVec.ofNat_toNat]
  change _ ↔ _ ∨ index p (c.setWidth 7) = invalidEntry
  by_cases hc : 128 ≤ c.toNat
  · simp [hc]
  · by_cases hindex : index p (c.setWidth 7) = invalidEntry <;> simp [hc, hindex]

/-- Settles O19: a block is rejected when some code is no alphabet character, in one of the two ways. -/
theorem decoderRejection : Obligations.DecoderRejection := by
  intro p k hp
  simp only [decBlock_eq_none hp, not_validChar_iff hp]

/-- Settles O22: the four laws, each a lemma about tuples of digits and their characters. -/
theorem coreLaws : Obligations.CoreLaws := by
  intro p hp
  refine ⟨decBlock_encChars hp, ?_, fun _ _ => encChars_injective hp, ?_, ?_⟩
  · intro k d0 d1 d2 d3 d4 h0 h1 h2 h3 h4
    obtain ⟨d, rfl, hvalue⟩ := exists_tuple_of_charOfDigit h0 h1 h2 h3 h4
    rw [← hvalue]
    exact ⟨_, decBlock_tupleChars hp d, encChars_ofNat_eq_iff hp d,
      fun hover => toNat_ofNat_of_overflow hover (tupleValue_lt d)⟩
  · intro k k' v d0 d1 d2 d3 d4 e0 e1 e2 e3 e4 h0 h1 h2 h3 h4 g0 g1 g2 g3 g4 hd he hk hk'
    obtain ⟨d, rfl, hdvalue⟩ := exists_tuple_of_charOfDigit h0 h1 h2 h3 h4
    obtain ⟨e, rfl, hevalue⟩ := exists_tuple_of_charOfDigit g0 g1 g2 g3 g4
    rw [← hdvalue] at hd
    rw [← hevalue] at he
    rw [← encChars_of_decBlock_canonical hp hd hk, encChars_of_decBlock_canonical hp he hk']
  · intro w k hne hk hdec
    obtain ⟨houter, hinner⟩ := palindrome_of_decBlock_reverse hp hk hdec
    exact hne.elim (· houter) (· hinner)

/-! ## The commands -/

/-- DEC5 on a block the core accepts (R106). -/
theorem exec_dec5_of_some {s : State} {v : Word} (h : decBlock s.params s.chrIn = some v) :
    exec .dec5 s = .next { s with dataOut := v, err := 0, errWin := 0 } := by
  rw [exec, execDec5, h]
  rfl

/-- DEC5 on a block the core rejects (R106). -/
theorem exec_dec5_of_none {s : State} (h : decBlock s.params s.chrIn = none) :
    exec .dec5 s = .next { s with err := 2, errWin := 0 } := by
  rw [exec, execDec5, h]
  rfl

/-- RDALPHA with a legal index (R107). -/
theorem exec_rdalpha_of_lt {a : Code} (ha : a.toNat < 85) (s : State) :
    exec (.rdalpha a) s =
      .next { s with
        chrOut := { s.chrOut with c0 := (alpha s.params ⟨a.toNat, ha⟩).setWidth 8 }, err := 0, errWin := 0 } := by
  rw [exec, execRdalpha, dif_pos ha]
  rfl

/-- Widening a code to a `CHR_OUT` register and then to the port is widening it to the port (R24). -/
theorem setWidth_chrOut_code (c : Code) : (c.setWidth 8).setWidth 32 = charEntry c :=
  BitVec.setWidth_setWidth (by decide)

/-- Settles O17: ENC4 writes the characters of an encoded block, and character `q` is that of digit `q`. -/
theorem enc4Result : Obligations.Enc4Result := by
  intro s
  refine ⟨_, execEnc4_eq s, rfl, fun q hq => ?_⟩
  rw [← blockEntries_getElem? s.params s.dataIn q hq, blockEntries]
  simp only [succeed_chrOut, Quint.toList_map, List.getElem?_map, Option.map_map, Function.comp_def,
    setWidth_chrOut_code]

/-- Settles O18: the core accepts five alphabet characters, and rejects a block with another code. -/
theorem dec5Result : Obligations.Dec5Result := by
  intro s hp
  refine ⟨fun d0 d1 d2 d3 d4 h0 h1 h2 h3 h4 => ?_, fun hbad => ?_⟩
  · exact exec_dec5_of_some (decBlock_eq hp h0 h1 h2 h3 h4)
  · exact exec_dec5_of_none ((decBlock_eq_none hp s.chrIn).mpr hbad)

/-- Settles O20: the value of an accepted block is truncated once, which no canonical block's is; and every number below
`85 ^ 5` has one tuple of digits. -/
theorem overflowIsTruncated : Obligations.OverflowIsTruncated := by
  refine ⟨?_, ?_, by decide, by decide⟩
  · intro s d0 d1 d2 d3 d4 hp h0 h1 h2 h3 h4 hover
    obtain ⟨d, hchars, hvalue⟩ := exists_tuple_of_charOfDigit h0 h1 h2 h3 h4
    rw [← hvalue] at hover ⊢
    have hdec : decBlock s.params s.chrIn = some (BitVec.ofNat 32 (tupleValue d - 2 ^ 32)) := by
      rw [← hchars, decBlock_tupleChars hp, ← toNat_ofNat_of_overflow hover (tupleValue_lt d), BitVec.ofNat_toNat,
        BitVec.setWidth_eq]
    refine ⟨exec_dec5_of_some hdec, ?_⟩
    rw [← hchars, ne_eq, encChars_ofNat_eq_iff hp d]
    exact not_lt.mpr hover
  · intro n hn
    have hvalue := tupleValue_digitTuple hn
    exact ⟨digitTuple n, fun e => ⟨fun he => tupleValue_injective (he.trans hvalue.symm), fun he => he ▸ hvalue⟩⟩

/-- Settles O21: an index with an alphabet character is below 85, and the ROM's entry there is that character. -/
theorem rdalphaResult : Obligations.RdalphaResult := by
  intro s a c hc
  obtain ⟨hlen, rfl⟩ := List.getElem?_eq_some_iff.mp hc
  exact exec_rdalpha_of_lt (by simpa using hlen) s

end Sys2Proof.Machine
end

section
/-! SUPPORT. A commit as the statements say it, and the ENCODE commands (R130, R131, R140-R142). -/

namespace Sys2Proof.Machine

/-! ## Commits -/

/-- `t` is `s` after a successful ENCODE of `len` entries: entry `i` of them is `entry i`, the rest of `CHAR_BUF` and
all else but the status is as before (R54, R130). -/
def WroteChars (s t : State) (len : Nat) (entry : Nat → Option Word) : Prop :=
  t = { s with charBuf := t.charBuf, outLen := BitVec.ofNat 32 len, err := 0, errWin := 0 } ∧
    (∀ i, i < len → t.charBuf.read i = entry i) ∧ ∀ i, len ≤ i → t.charBuf.read i = s.charBuf.read i

/-- The same of a successful DECODE and `BYTE_BUF`. -/
def WroteBytes (s t : State) (len : Nat) (byte : Nat → Byte) : Prop :=
  t = { s with byteBuf := t.byteBuf, outLen := BitVec.ofNat 32 len, err := 0, errWin := 0 } ∧
    (∀ i, i < len → t.byteBuf.read i = some (byte i)) ∧ ∀ i, len ≤ i → t.byteBuf.read i = s.byteBuf.read i

theorem Memory.read_writeRange_of_lt {w i : Nat} (m : Memory w) {out : List (BitVec w)} (hi : i < out.length) :
    (m.writeRange 0 out).read i = out[i]? := by
  rw [Memory.read_writeRange_zero, if_pos hi]

theorem Memory.read_writeRange_of_le {w i : Nat} (m : Memory w) {out : List (BitVec w)} (hi : out.length ≤ i) :
    (m.writeRange 0 out).read i = m.read i := by
  rw [Memory.read_writeRange_zero, if_neg (Nat.not_lt.mpr hi)]

theorem commitChars_wrote (s : State) {out : List Word} {len : Nat} {entry : Nat → Option Word}
    (hlen : out.length = len) (hout : ∀ i, i < len → out[i]? = entry i) :
    WroteChars s (commitChars s out) len entry := by
  subst hlen
  exact ⟨rfl, fun i hi => (Memory.read_writeRange_of_lt _ hi).trans (hout i hi),
    fun i hi => Memory.read_writeRange_of_le _ hi⟩

theorem commitBytes_wrote (s : State) {out : List Byte} {len : Nat} {byte : Nat → Byte}
    (hlen : out.length = len) (hout : ∀ i, i < len → out[i]? = some (byte i)) :
    WroteBytes s (commitBytes s out) len byte := by
  subst hlen
  exact ⟨rfl, fun i hi => (Memory.read_writeRange_of_lt _ hi).trans (hout i hi),
    fun i hi => Memory.read_writeRange_of_le _ hi⟩

/-- A length that fits a buffer of legal capacity fits `OUT_LEN` (R6, R29). -/
theorem toNat_ofNat_of_fits {p : Params} (hp : p.Valid) {len : Nat} (hfit : len ≤ p.bufCap) :
    (BitVec.ofNat 32 len).toNat = len := by
  rw [BitVec.toNat_ofNat, Nat.mod_eq_of_lt (hfit.trans_lt hp.capBound)]

theorem WroteChars.toNat_outLen {s t : State} {len : Nat} {entry : Nat → Option Word} (h : WroteChars s t len entry)
    (hp : s.params.Valid) (hfit : len ≤ s.params.bufCap) : t.outLen.toNat = len := by
  rw [h.1]
  exact toNat_ofNat_of_fits hp hfit

/-! ## The output of an encode -/

section
variable {s : State} {bs : List Byte} (hread : s.byteBuf.readRange 0 s.inLen.toNat = some bs)
include hread

theorem length_of_readRange : bs.length = s.inLen.toNat :=
  ((Memory.readRange_eq_some _ _ _ _).mp hread).1

/-- A byte of the input, as the buffer holds it. -/
theorem getElem?_of_readRange {i : Nat} (hi : i < s.inLen.toNat) : bs[i]? = s.byteBuf.read i := by
  obtain ⟨-, hentry⟩ := (Memory.readRange_eq_some _ _ _ _).mp hread
  rw [← hentry i hi, Nat.zero_add]

/-- The entries of a full block are its characters, whatever the variant. -/
theorem encodeBytes_full (tail : List Byte → List Word) {i : Nat} (hi : i / 5 < s.inLen.toNat / 4) :
    (encodeBytes s.params tail bs)[i]? = encodedEntry s i := by
  rw [encodeBytes_getElem?, length_of_readRange hread, if_pos hi, encodedEntry, inputBlock_eq hread]

/-- The entries after the full blocks are the variant's tail. -/
theorem encodeBytes_tail (tail : List Byte → List Word) {i : Nat} (hfull : ¬ i / 5 < s.inLen.toNat / 4)
    (hi : i < 5 * ceil4 s.inLen.toNat) :
    (encodeBytes s.params tail bs)[i]? = (tail (listTail bs))[i % 5]? := by
  have hblock : i - 5 * (s.inLen.toNat / 4) = i % 5 := by simp only [ceil4] at hi; omega
  have hshort : ¬ s.inLen.toNat % 4 = 0 := by simp only [ceil4] at hi; omega
  rw [encodeBytes_getElem?, length_of_readRange hread, if_neg hfull, if_neg hshort, hblock]

/-- The block that the tail of the input is padded to. -/
theorem listBlock_listTail_eq_inputBlock {i : Nat} (hfull : ¬ i / 5 < s.inLen.toNat / 4)
    (hi : i < 5 * ceil4 s.inLen.toNat) : listBlock (listTail bs) 0 = inputBlock s (i / 5) := by
  have hblock : s.inLen.toNat / 4 = i / 5 := by simp only [ceil4] at hi; omega
  rw [listBlock_listTail, length_of_readRange hread, inputBlock_eq hread, hblock]

theorem length_listTail_of_readRange : (listTail bs).length = s.inLen.toNat % 4 := by
  rw [length_listTail, length_of_readRange hread]

end

/-- An entry of ENCODE.DEFAULT's output: the mark from place `r + 1` of the tail's window on (R131). -/
def defaultEntry (s : State) (i : Nat) : Option Word :=
  if 4 * (i / 5) + i % 5 ≤ s.inLen.toNat then encodedEntry s i else some (markEntry s.params)

section
variable {s : State} {bs : List Byte} (hread : s.byteBuf.readRange 0 s.inLen.toNat = some bs)
include hread

theorem encodeDefault_wrote :
    WroteChars s (commitChars s (encodeBytes s.params (encTail s.params) bs)) (5 * ceil4 s.inLen.toNat)
      (defaultEntry s) := by
  refine commitChars_wrote s (length_encodeBytes_of_blockTail (length_encTail s.params) hread) fun i hi => ?_
  rw [defaultEntry]
  by_cases hfull : i / 5 < s.inLen.toNat / 4
  · rw [encodeBytes_full hread _ hfull, if_pos (by omega)]
  · have hplace : i % 5 ≤ s.inLen.toNat % 4 ↔ 4 * (i / 5) + i % 5 ≤ s.inLen.toNat := by
      simp only [ceil4] at hi; omega
    have hshort := length_listTail_of_readRange hread
    rw [encodeBytes_tail hread _ hfull hi, encTail_getElem? _ _ (by omega) _ (Nat.mod_lt _ (by decide)), hshort,
      listBlock_listTail_eq_inputBlock hread hfull hi]
    simp only [hplace, encodedEntry]

theorem encodePadded_wrote :
    WroteChars s (commitChars s (encodeBytes s.params (padTail s.params) bs)) (5 * ceil4 s.inLen.toNat)
      (encodedEntry s) := by
  have hlen := length_encodeBytes_of_blockTail (fun t _ => length_padTail s.params t) hread
  refine commitChars_wrote s hlen fun i hi => ?_
  by_cases hfull : i / 5 < s.inLen.toNat / 4
  · exact encodeBytes_full hread _ hfull
  · rw [encodeBytes_tail hread _ hfull hi, padTail_getElem? _ _ _ (Nat.mod_lt _ (by decide)),
      listBlock_listTail_eq_inputBlock hread hfull hi, encodedEntry]

theorem encodeStrict_wrote (hwhole : s.inLen.toNat % 4 = 0) :
    WroteChars s (commitChars s (encodeBytes s.params (fun _ => []) bs)) (5 * (s.inLen.toNat / 4))
      (encodedEntry s) := by
  have hbs := length_of_readRange hread
  have hlen := length_encodeBytes s.params (fun _ => []) bs (fun hshort => absurd (hbs ▸ hwhole) hshort)
  refine commitChars_wrote s (by simp only [ceil4] at hlen; omega) fun i hi => ?_
  exact encodeBytes_full hread _ (by omega)

end

/-! ## The ENCODE commands -/

/-- An ENCODE that rounds its input up to whole blocks, by its tail: ENCODE.DEFAULT (R140) or ENCODE.PADDED (R142). -/
def roundingEncode (s : State) (tail : List Byte → List Word) : StepResult :=
  if s.params.bufCap < s.inLen.toNat then .next (raiseBufferErr s .capacityExceeded 0)
  else if s.params.bufCap < 5 * ceil4 s.inLen.toNat then .next (raiseBufferErr s .capacityExceeded 0)
  else encodeBuffer s tail

theorem exec_encodeDefault (s : State) : exec .encodeDefault s = roundingEncode s (encTail s.params) := rfl

theorem exec_encodePadded (s : State) : exec .encodePadded s = roundingEncode s (padTail s.params) := rfl

theorem exec_encodeStrict (s : State) : exec .encodeStrict s = execEncodeStrict s := rfl

theorem roundingEncode_of_exceeds {s : State} (tail : List Byte → List Word)
    (h : s.params.bufCap < s.inLen.toNat ∨ s.params.bufCap < 5 * ceil4 s.inLen.toNat) :
    roundingEncode s tail = .next (raiseBufferErr s .capacityExceeded 0) := by
  rw [roundingEncode]
  split
  · rfl
  · next hin => rw [if_pos (h.resolve_left hin)]

/-- An encode whose checks have passed and whose input is written commits its output (R130). -/
theorem encodeBuffer_of_bytesWritten {s : State} (tail : List Byte → List Word) (h : BytesWritten s) :
    ∃ bs, s.byteBuf.readRange 0 s.inLen.toNat = some bs ∧
      encodeBuffer s tail = .next (commitChars s (encodeBytes s.params tail bs)) := by
  obtain ⟨bs, hread⟩ := readRange_of_bytesWritten h
  exact ⟨bs, hread, (encodeBuffer_eq_next _ _ _).mpr ⟨bs, hread, rfl⟩⟩

/-- The input of an encode is no longer than its output, so one check says both fit. -/
theorem roundingEncode_of_fits {s : State} (tail : List Byte → List Word)
    (hfit : 5 * ceil4 s.inLen.toNat ≤ s.params.bufCap) (h : BytesWritten s) :
    ∃ bs, s.byteBuf.readRange 0 s.inLen.toNat = some bs ∧
      roundingEncode s tail = .next (commitChars s (encodeBytes s.params tail bs)) := by
  rw [roundingEncode, if_neg (by simp only [ceil4] at hfit; omega), if_neg (Nat.not_lt.mpr hfit)]
  exact encodeBuffer_of_bytesWritten tail h

theorem exec_encodeDefault_of_fits {s : State} (hfit : 5 * ceil4 s.inLen.toNat ≤ s.params.bufCap)
    (h : BytesWritten s) :
    ∃ t, exec .encodeDefault s = .next t ∧ WroteChars s t (5 * ceil4 s.inLen.toNat) (defaultEntry s) := by
  obtain ⟨bs, hread, hexec⟩ := roundingEncode_of_fits (encTail s.params) hfit h
  exact ⟨_, (exec_encodeDefault s).trans hexec, encodeDefault_wrote hread⟩

theorem exec_encodePadded_of_fits {s : State} (hfit : 5 * ceil4 s.inLen.toNat ≤ s.params.bufCap)
    (h : BytesWritten s) :
    ∃ t, exec .encodePadded s = .next t ∧ WroteChars s t (5 * ceil4 s.inLen.toNat) (encodedEntry s) := by
  obtain ⟨bs, hread, hexec⟩ := roundingEncode_of_fits (padTail s.params) hfit h
  exact ⟨_, (exec_encodePadded s).trans hexec, encodePadded_wrote hread⟩

theorem exec_encodeStrict_of_badLength {s : State} (hin : s.inLen.toNat ≤ s.params.bufCap)
    (hlen : s.inLen.toNat % 4 ≠ 0) :
    exec .encodeStrict s = .next (raiseBufferErr s .invalidLength 0) := by
  rw [exec_encodeStrict, execEncodeStrict, if_neg (Nat.not_lt.mpr hin), if_pos hlen]

theorem exec_encodeStrict_of_fits {s : State} (hwhole : s.inLen.toNat % 4 = 0)
    (hfit : 5 * (s.inLen.toNat / 4) ≤ s.params.bufCap) (h : BytesWritten s) :
    ∃ t, exec .encodeStrict s = .next t ∧ WroteChars s t (5 * (s.inLen.toNat / 4)) (encodedEntry s) := by
  obtain ⟨bs, hread, hexec⟩ := encodeBuffer_of_bytesWritten (fun _ => []) h
  refine ⟨_, ?_, encodeStrict_wrote hread hwhole⟩
  rw [exec_encodeStrict, execEncodeStrict, if_neg (by omega), if_neg (not_not.mpr hwhole),
    if_neg (Nat.not_lt.mpr hfit), hexec]

/-- Settles O24: the two checks give one error, and the output's entries are those of the full blocks and the tail. -/
theorem encodeDefaultResult : Obligations.EncodeDefaultResult := by
  rintro s _ rfl
  exact ⟨roundingEncode_of_exceeds (encTail s.params), fun _ hfit hw => exec_encodeDefault_of_fits hfit hw⟩

/-- Settles O25: the checks in the order of R173, and then full blocks only. -/
theorem encodeStrictResult : Obligations.EncodeStrictResult := by
  rintro s _ rfl
  refine ⟨fun hin => ?_, exec_encodeStrict_of_badLength, fun hin hwhole hout => ?_,
    fun _ hwhole hfit hw => exec_encodeStrict_of_fits hwhole hfit hw⟩
  · rw [exec_encodeStrict, execEncodeStrict, if_pos hin]
    rfl
  · rw [exec_encodeStrict, execEncodeStrict, if_neg (Nat.not_lt.mpr hin), if_neg (not_not.mpr hwhole), if_pos hout]
    rfl

/-- Settles O26: as O24, the tail's block encoded whole. -/
theorem encodePaddedResult : Obligations.EncodePaddedResult := by
  rintro s _ rfl
  exact ⟨roundingEncode_of_exceeds (padTail s.params), fun _ hfit hw => exec_encodePadded_of_fits hfit hw⟩

end Sys2Proof.Machine
end

section
/-! SUPPORT. A window and its decoders, entry by entry (R103, R130, R133-R135), and the loop over windows (R173). -/

namespace Sys2Proof.Machine

/-! ## Five places -/

theorem forall_lt_five {P : Nat → Prop} : (∀ q, q < 5 → P q) ↔ P 0 ∧ P 1 ∧ P 2 ∧ P 3 ∧ P 4 := by
  constructor
  · intro h
    exact ⟨h 0 (by decide), h 1 (by decide), h 2 (by decide), h 3 (by decide), h 4 (by decide)⟩
  · rintro ⟨h0, h1, h2, h3, h4⟩ q hq
    interval_cases q <;> assumption

/-- The tuple of a function's first five values. -/
def quintOf {α : Type} (f : Nat → α) : Quint α := ⟨f 0, f 1, f 2, f 3, f 4⟩

theorem toList_quintOf_getElem? {α : Type} (f : Nat → α) : ∀ q, q < 5 → (quintOf f).toList[q]? = some (f q) :=
  forall_lt_five.mpr ⟨rfl, rfl, rfl, rfl, rfl⟩

theorem Quint.toList_getElem?_ne_none {α : Type} (t : Quint α) {q : Nat} (hq : q < 5) : t.toList[q]? ≠ none := by
  rw [ne_eq, List.getElem?_eq_none_iff, Quint.length_toList]
  omega

theorem charOfDigit_ne_none (p : Params) {d : Nat} (hd : d < 85) : charOfDigit p d ≠ none := by
  rw [charOfDigit_lt p ⟨d, hd⟩]
  exact Option.some_ne_none _

/-! ## The digits of a window -/

/-- The digits of a window are those of its five entries. -/
theorem tailDigits_eq_some_iff (p : Params) (m : Nat) (t : Quint Word) (v : Quint Nat) :
    tailDigits p m t = some v ↔ ∀ q, q < 5 → t.toList[q]?.bind (tailDigit p m q) = v.toList[q]? := by
  rw [tailDigits, Quint.allSome_eq_some, forall_lt_five]
  rfl

/-- A full window is one with no place filled. -/
theorem decWindow_eq_map_tailDigits (p : Params) (t : Quint Word) :
    decWindow p t = (tailDigits p 0 t).map (fun v => bytesOf (valueOf v)) := by
  simp only [decWindow, decBlock, Option.map_map]
  rfl

/-- The Default tail (R134) as one rule for 0 to 3 marks. -/
theorem decTail_eq_map_tailDigits {p : Params} {t : Quint Word} (hm : markCount p t ≤ 3) :
    decTail p t = (tailDigits p (markCount p t) t).map (fun v => (bytesOf (valueOf v)).take (4 - markCount p t)) := by
  rw [decTail]
  split
  · next h0 =>
    rw [decWindow_eq_map_tailDigits, h0]
    rfl
  · rw [if_neg (by omega)]

theorem decTail_of_four_le {p : Params} {t : Quint Word} (hm : 4 ≤ markCount p t) : decTail p t = none := by
  rw [decTail, if_neg (by omega), if_pos hm]

/-! ## Windows that decode -/

section
variable {p : Params} (hp : p.Valid) {t : Quint Word} {v : Nat → Nat} {m : Nat}
include hp

/-- Characters before the marks give their digits, the marks the fill digit (R134, R135). -/
theorem tailDigits_of_chars (hchar : ∀ q, q < 5 - m → t.toList[q]? = charOfDigit p (v q))
    (hfill : ∀ q, 5 - m ≤ q → q < 5 → v q = fillDigit) : tailDigits p m t = some (quintOf v) := by
  rw [tailDigits_eq_some_iff]
  intro q hq
  obtain ⟨c, hc⟩ := Option.ne_none_iff_exists'.mp (Quint.toList_getElem?_ne_none t hq)
  rw [hc, Option.bind_some, toList_quintOf_getElem? v q hq, tailDigit]
  split
  · next hmark => rw [hfill q hmark hq]
  · next hplace => exact (lookup_eq_some hp c (v q)).mpr ((hchar q (by omega)).symm.trans hc)

theorem decWindow_of_chars (hchar : ∀ q, q < 5 → t.toList[q]? = charOfDigit p (v q)) :
    decWindow p t = some (bytesOf (valueOf (quintOf v))) := by
  rw [decWindow_eq_map_tailDigits, tailDigits_of_chars hp hchar fun q h5 hq => absurd hq (Nat.not_lt.mpr h5)]
  rfl

/-- A character is no mark, so the trailing marks end where the characters do (R22, R133). -/
theorem markCount_of_chars (hm : m ≤ 3) (hchar : ∀ q, q < 5 - m → t.toList[q]? = charOfDigit p (v q))
    (hmark : ∀ q, 5 - m ≤ q → q < 5 → t.toList[q]? = some (markEntry p)) : markCount p t = m := by
  refine (markCount_eq p t m).mpr ⟨by omega, hmark, fun _ hbefore => mark_not_validChar hp ?_⟩
  have hdigit := (hchar (4 - m) (by omega)).symm.trans hbefore
  exact ⟨v (4 - m), lt_of_charOfDigit hdigit, hdigit⟩

theorem decTail_of_chars (hm : m ≤ 3) (hchar : ∀ q, q < 5 - m → t.toList[q]? = charOfDigit p (v q))
    (hmark : ∀ q, 5 - m ≤ q → q < 5 → t.toList[q]? = some (markEntry p))
    (hfill : ∀ q, 5 - m ≤ q → q < 5 → v q = fillDigit) :
    decTail p t = some ((bytesOf (valueOf (quintOf v))).take (4 - m)) := by
  have hcount := markCount_of_chars hp hm hchar hmark
  rw [decTail_eq_map_tailDigits (by omega), hcount, tailDigits_of_chars hp hchar hfill]
  rfl

/-! ## Windows that fail -/

/-- A full window fails exactly where it holds a bad character (R104). -/
theorem decWindow_eq_none_iff : decWindow p t = none ↔ ∃ c ∈ t.toList, ¬ ValidChar p c := by
  rw [decWindow, Option.map_eq_none_iff, decBlock_eq_none hp]

/-- A last window fails where it holds a bad character before its marks (R134). -/
theorem decTail_of_badChar {q : Nat} {c : Word} (hq : q < 5 - markCount p t) (hc : t.toList[q]? = some c)
    (hbad : ¬ ValidChar p c) : decTail p t = none := by
  by_cases hm : markCount p t ≤ 3
  · rw [decTail_eq_map_tailDigits hm, Option.map_eq_none_iff, Option.eq_none_iff_forall_ne_some]
    intro v hv
    have hplace := (tailDigits_eq_some_iff _ _ _ _).mp hv q (by omega)
    rw [hc, Option.bind_some, tailDigit, if_neg (by omega), (lookup_eq_none hp c).mpr hbad] at hplace
    exact Quint.toList_getElem?_ne_none v (by omega) hplace.symm
  · exact decTail_of_four_le (by omega)

end

/-! ## Windows of a string of entries -/

/-- `window` reads the windows of the string of entries `entry`, of which an unwritten one is none (R130). -/
def WindowsOf (window : Nat → Option (Quint Word)) (entry : Nat → Option Word) : Prop :=
  ∀ j t, window j = some t ↔ ∀ q, q < 5 → entry (5 * j + q) = t.toList[q]?

theorem windowsOf_windowAt (m : Memory 32) : WindowsOf (windowAt m) m.read := windowAt_eq_some m

/-- The bytes of the value of window `j` of a string with digit values `v`. -/
def windowBytes (v : Nat → Nat) (j : Nat) : List Byte := bytesOf (valueOf (quintOf fun q => v (5 * j + q)))

theorem windowBytes_getElem? (v : Nat → Nat) (j : Nat) {q : Nat} (hq : q < 4) :
    (windowBytes v j)[q]? = some (byteOfValue (windowValue v j) q) := by
  rw [windowBytes, bytesOf_getElem? _ _ hq]
  exact congrArg some (byteOfValue_ofNat (windowValue v j) q hq)

@[simp] theorem length_windowBytes (v : Nat → Nat) (j : Nat) : (windowBytes v j).length = 4 := rfl

section
variable {p : Params} {window : Nat → Option (Quint Word)} {entry : Nat → Option Word} (hwin : WindowsOf window entry)
include hwin

theorem WindowsOf.exists_window {j : Nat} (hwritten : ∀ q, q < 5 → entry (5 * j + q) ≠ none) :
    ∃ t, window j = some t := by
  obtain ⟨h0, h1, h2, h3, h4⟩ := forall_lt_five.mp fun q hq => Option.ne_none_iff_exists'.mp (hwritten q hq)
  obtain ⟨a, ha⟩ := h0
  obtain ⟨b, hb⟩ := h1
  obtain ⟨c, hc⟩ := h2
  obtain ⟨d, hd⟩ := h3
  obtain ⟨e, he⟩ := h4
  exact ⟨⟨a, b, c, d, e⟩, (hwin j _).mpr (forall_lt_five.mpr ⟨ha, hb, hc, hd, he⟩)⟩

/-- A window of alphabet characters decodes to the bytes of its value (R103). -/
theorem WindowsOf.decWindow_eq (hp : p.Valid) {v : Nat → Nat} {j : Nat} (hv : ∀ q, q < 5 → v (5 * j + q) < 85)
    (hchar : ∀ q, q < 5 → entry (5 * j + q) = charOfDigit p (v (5 * j + q))) :
    ∃ t, window j = some t ∧ decWindow p t = some (windowBytes v j) := by
  obtain ⟨t, ht⟩ := hwin.exists_window fun q hq => by rw [hchar q hq]; exact charOfDigit_ne_none p (hv q hq)
  exact ⟨t, ht, decWindow_of_chars hp fun q hq => ((hwin j t).mp ht q hq).symm.trans (hchar q hq)⟩

/-- A window of characters and up to 3 trailing marks decodes to the top bytes of its filled value (R134). -/
theorem WindowsOf.decTail_eq (hp : p.Valid) {v : Nat → Nat} {j m : Nat} (hm : m ≤ 3)
    (hchar : ∀ q, q < 5 - m → v (5 * j + q) < 85 ∧ entry (5 * j + q) = charOfDigit p (v (5 * j + q)))
    (hmark : ∀ q, 5 - m ≤ q → q < 5 → v (5 * j + q) = 84 ∧ entry (5 * j + q) = some (markEntry p)) :
    ∃ t, window j = some t ∧ decTail p t = some ((windowBytes v j).take (4 - m)) := by
  have hwritten : ∀ q, q < 5 → entry (5 * j + q) ≠ none := by
    intro q hq
    by_cases hplace : q < 5 - m
    · rw [(hchar q hplace).2]
      exact charOfDigit_ne_none p (hchar q hplace).1
    · rw [(hmark q (by omega) hq).2]
      exact Option.some_ne_none _
  obtain ⟨t, ht⟩ := hwin.exists_window hwritten
  have hentry := (hwin j t).mp ht
  exact ⟨t, ht, decTail_of_chars hp hm
    (fun q hq => (hentry q (by omega)).symm.trans (hchar q hq).2)
    (fun q h5 hq => (hentry q hq).symm.trans (hmark q h5 hq).2)
    fun q h5 hq => (hmark q h5 hq).1⟩

/-- A full window with a bad character fails. -/
theorem WindowsOf.decWindow_eq_none (hp : p.Valid) {j q : Nat} {t : Quint Word} {c : Word} (ht : window j = some t)
    (hq : q < 5) (hc : entry (5 * j + q) = some c) (hbad : ¬ ValidChar p c) : decWindow p t = none := by
  rw [(hwin j t).mp ht q hq] at hc
  exact (decWindow_eq_none_iff hp).mpr ⟨c, List.mem_of_getElem? hc, hbad⟩

/-- A window of good characters decodes as a full one. -/
theorem WindowsOf.exists_decWindow (hp : p.Valid) {j : Nat}
    (hgood : ∀ q, q < 5 → ∃ c, entry (5 * j + q) = some c ∧ ValidChar p c) :
    ∃ t bs, window j = some t ∧ decWindow p t = some bs := by
  obtain ⟨t, ht⟩ := hwin.exists_window fun q hq hnone => by
    obtain ⟨c, hc, -⟩ := hgood q hq
    exact Option.some_ne_none c (hc.symm.trans hnone)
  refine ⟨t, ?_⟩
  cases hd : decWindow p t with
  | some bs => exact ⟨bs, ht, rfl⟩
  | none =>
    obtain ⟨c, hmem, hbad⟩ := (decWindow_eq_none_iff hp).mp hd
    obtain ⟨q, hcq⟩ := List.mem_iff_getElem?.mp hmem
    obtain ⟨hq, -⟩ := List.getElem?_eq_some_iff.mp hcq
    obtain ⟨c', hc', hvalid⟩ := hgood q hq
    rw [(hwin j t).mp ht q hq, hcq] at hc'
    exact absurd (Option.some.inj hc' ▸ hvalid) hbad

end

/-! ## The loop -/

theorem windowDecoder_of_ne {full last : Quint Word → Option (List Byte)} {k i : Nat} (h : i + 1 ≠ k) :
    windowDecoder full last k i = full := if_neg h

theorem windowDecoder_of_eq {full last : Quint Word → Option (List Byte)} {k i : Nat} (h : i + 1 = k) :
    windowDecoder full last k i = last := if_pos h

theorem windowDecoder_self (full : Quint Word → Option (List Byte)) (k i : Nat) :
    windowDecoder full full k i = full := ite_self _

/-- The bytes window `j` of `k` gives when the last one has `m` marks. -/
def markedBytes (v : Nat → Nat) (k m j : Nat) : List Byte :=
  (windowBytes v j).take (if j + 1 = k then 4 - m else 4)

theorem length_markedBytes (v : Nat → Nat) (k m j : Nat) :
    (markedBytes v k m j).length = if j + 1 = k then 4 - m else 4 := by
  rw [markedBytes, List.length_take, length_windowBytes]
  split <;> omega

theorem markedBytes_getElem? {v : Nat → Nat} {k m i : Nat} (hi : i < 4 * k - m) :
    (markedBytes v k m (i / 4))[i % 4]? = some (decodedByte v i) := by
  have hplace : i % 4 < if i / 4 + 1 = k then 4 - m else 4 := by split <;> omega
  rw [markedBytes, List.getElem?_take_of_lt hplace, windowBytes_getElem? _ _ (Nat.mod_lt _ (by decide)), decodedByte]

/-- The output of a loop whose windows all decode, the last one with `m` marks. -/
theorem decodeWindows_of_bytes {p : Params} {window : Nat → Option (Quint Word)}
    {last : Quint Word → Option (List Byte)} {v : Nat → Nat} {k m : Nat} (hm : m ≤ 3)
    (hfull : ∀ j, j + 1 < k → ∃ t, window j = some t ∧ decWindow p t = some (windowBytes v j))
    (hlast : ∀ j, j + 1 = k → ∃ t, window j = some t ∧ last t = some ((windowBytes v j).take (4 - m))) :
    ∃ out, decodeWindows window (decWindow p) last k 0 = .output out ∧ out.length = 4 * k - m ∧
      ∀ i, i < 4 * k - m → out[i]? = some (decodedByte v i) := by
  refine ⟨(List.range k).flatMap (markedBytes v k m), ?_, ?_, fun i hi => ?_⟩
  · refine (decodeWindows_eq_output _ _ _ _ _ _).mpr ⟨markedBytes v k m, fun j hj => ?_, rfl⟩
    rw [Nat.zero_add, markedBytes]
    by_cases hend : j + 1 = k
    · rw [windowDecoder_of_eq hend, if_pos hend]
      exact hlast j hend
    · rw [windowDecoder_of_ne hend, if_neg hend]
      exact hfull j (by omega)
  · cases k with
    | zero => simp
    | succ k =>
      rw [length_flatMap_fours _ _ fun j hj => by rw [length_markedBytes, if_neg (by omega)], length_markedBytes,
        if_pos rfl]
      omega
  · rw [flatMap_fours_getElem? _ _ (fun j hj => by rw [length_markedBytes, if_neg (by omega)])
      (fun j _ => by rw [length_markedBytes]; split <;> omega), if_pos (by omega), markedBytes_getElem? hi]

section
variable {p : Params} {window : Nat → Option (Quint Word)} {entry : Nat → Option Word} (hwin : WindowsOf window entry)
  {last : Quint Word → Option (List Byte)} {k : Nat}
include hwin

/-- The loop ends at a window that fails when the characters before it are good (R173). -/
theorem WindowsOf.decodeWindows_badChar (hp : p.Valid) {w : Nat} (hw : w < k)
    (hgood : ∀ i, i < 5 * w → ∃ c, entry i = some c ∧ ValidChar p c)
    (hwritten : ∀ q, q < 5 → entry (5 * w + q) ≠ none)
    (hfail : ∀ t, window w = some t → windowDecoder (decWindow p) last k w t = none) :
    decodeWindows window (decWindow p) last k 0 = .badChar w := by
  obtain ⟨t, ht⟩ := hwin.exists_window hwritten
  refine (decodeWindows_eq_badChar _ _ _ _ _ _).mpr ⟨w, hw, (Nat.zero_add w).symm, fun j hj => ?_, ?_⟩
  · rw [Nat.zero_add, windowDecoder_of_ne (by omega)]
    exact hwin.exists_decWindow hp fun q hq => hgood (5 * j + q) (by omega)
  · rw [Nat.zero_add]
    exact ⟨t, ht, hfail t ht⟩

/-- The loop over a written string ends at some window when one of them fails. -/
theorem WindowsOf.decodeWindows_rejects (hwritten : ∀ i, i < 5 * k → entry i ≠ none) {w : Nat} (hw : w < k)
    (hfail : ∀ t, window w = some t → windowDecoder (decWindow p) last k w t = none) :
    ∃ j, decodeWindows window (decWindow p) last k 0 = .badChar j := by
  cases hrun : decodeWindows window (decWindow p) last k 0 with
  | badChar j => exact ⟨j, rfl⟩
  | output out =>
    obtain ⟨f, hf, -⟩ := (decodeWindows_eq_output _ _ _ _ _ _).mp hrun
    obtain ⟨t, ht, hd⟩ := hf w hw
    rw [Nat.zero_add] at ht
    rw [hfail t ht] at hd
    cases hd
  | unwritten =>
    obtain ⟨j, hj, -, hnone⟩ := (decodeWindows_eq_unwritten _ _ _ _ _).mp hrun
    obtain ⟨t, ht⟩ := hwin.exists_window fun q hq => hwritten (5 * j + q) (by omega)
    rw [Nat.zero_add, ht] at hnone
    cases hnone

end

end Sys2Proof.Machine
end

section
/-! SUPPORT. The DECODE commands (R150-R152). -/

namespace Sys2Proof.Machine

/-! ## Decodes of whole windows -/

/-- A DECODE of whole windows, by the decoder of its last one: DECODE.DEFAULT (R150) or DECODE.STRICT (R151). -/
def wholeDecode (s : State) (last : Quint Word → Option (List Byte)) : StepResult :=
  if s.params.bufCap < s.inLen.toNat then .next (raiseBufferErr s .capacityExceeded 0)
  else if s.inLen.toNat % 5 ≠ 0 then .next (raiseBufferErr s .invalidLength 0)
  else finishDecode s (decodeWindows (windowAt s.charBuf) (decWindow s.params) last (s.inLen.toNat / 5) 0)

theorem exec_decodeDefault (s : State) : exec .decodeDefault s = wholeDecode s (decTail s.params) := rfl

theorem exec_decodeStrict (s : State) : exec .decodeStrict s = wholeDecode s (decWindow s.params) := rfl

theorem wholeDecode_of_exceeds {s : State} (last : Quint Word → Option (List Byte))
    (hin : s.params.bufCap < s.inLen.toNat) : wholeDecode s last = .next (raiseBufferErr s .capacityExceeded 0) := by
  rw [wholeDecode, if_pos hin]

theorem wholeDecode_of_badLength {s : State} (last : Quint Word → Option (List Byte))
    (hin : s.inLen.toNat ≤ s.params.bufCap) (hlen : s.inLen.toNat % 5 ≠ 0) :
    wholeDecode s last = .next (raiseBufferErr s .invalidLength 0) := by
  rw [wholeDecode, if_neg (Nat.not_lt.mpr hin), if_pos hlen]

/-- The checks passed, the decode ends as its loop does. -/
theorem wholeDecode_of_fits {s : State} {k : Nat} (last : Quint Word → Option (List Byte))
    (hin : s.inLen.toNat ≤ s.params.bufCap) (hlen : s.inLen.toNat = 5 * k) :
    wholeDecode s last = finishDecode s (decodeWindows (windowAt s.charBuf) (decWindow s.params) last k 0) := by
  rw [wholeDecode, if_neg (Nat.not_lt.mpr hin), if_neg (by omega), show s.inLen.toNat / 5 = k by omega]

/-- The output of a decode whose loop ends well (R130). -/
theorem finishDecode_of_output {s : State} {run : DecodeRun} {len : Nat} {byte : Nat → Byte}
    (hrun : ∃ out, run = .output out ∧ out.length = len ∧ ∀ i, i < len → out[i]? = some (byte i)) :
    ∃ t, finishDecode s run = .next t ∧ WroteBytes s t len byte := by
  obtain ⟨out, rfl, hlen, hout⟩ := hrun
  exact ⟨_, rfl, commitBytes_wrote s hlen hout⟩

section
variable {s : State} (hp : s.params.Valid) {k : Nat} (hin : s.inLen.toNat ≤ s.params.bufCap)
  (hlen : s.inLen.toNat = 5 * k)
include hp hin hlen

/-- DECODE.STRICT of alphabet characters (R151). -/
theorem exec_decodeStrict_of_chars {v : Nat → Nat}
    (hchar : ∀ i, i < 5 * k → v i < 85 ∧ s.charBuf.read i = charOfDigit s.params (v i)) :
    ∃ t, exec .decodeStrict s = .next t ∧ WroteBytes s t (4 * k) (decodedByte v) := by
  have hwindow : ∀ j, j < k → ∃ t, windowAt s.charBuf j = some t ∧ decWindow s.params t = some (windowBytes v j) :=
    fun j hj => (windowsOf_windowAt s.charBuf).decWindow_eq hp (fun q hq => (hchar _ (by omega)).1)
      fun q hq => (hchar _ (by omega)).2
  rw [exec_decodeStrict, wholeDecode_of_fits _ hin hlen]
  exact finishDecode_of_output (decodeWindows_of_bytes (m := 0) (by decide) (fun j hj => hwindow j (by omega))
    fun j hj => hwindow j (by omega))

/-- DECODE.DEFAULT of alphabet characters with up to 3 marks behind them (R150). -/
theorem exec_decodeDefault_of_chars {v : Nat → Nat} {m : Nat} (hm : m ≤ 3)
    (hchar : ∀ i, i < 5 * k - m → v i < 85 ∧ s.charBuf.read i = charOfDigit s.params (v i))
    (hmark : ∀ i, 5 * k - m ≤ i → i < 5 * k → v i = 84 ∧ s.charBuf.read i = some (markEntry s.params)) :
    ∃ t, exec .decodeDefault s = .next t ∧ WroteBytes s t (4 * k - m) (decodedByte v) := by
  have hwin := windowsOf_windowAt s.charBuf
  rw [exec_decodeDefault, wholeDecode_of_fits _ hin hlen]
  refine finishDecode_of_output (decodeWindows_of_bytes hm (fun j hj => ?_) fun j hj => ?_)
  · exact hwin.decWindow_eq hp (fun q hq => (hchar _ (by omega)).1) fun q hq => (hchar _ (by omega)).2
  · exact hwin.decTail_eq hp hm (fun q hq => hchar _ (by omega)) fun q h5 hq => hmark _ (by omega) (by omega)

/-- INVALID_CHARACTER in the lowest window that fails (R173). -/
theorem wholeDecode_of_badWindow {last : Quint Word → Option (List Byte)} {w : Nat} (hw : w < k)
    (hgood : ∀ i, i < 5 * w → GoodEntry s i) (hwritten : ∀ q, q < 5 → s.charBuf.read (5 * w + q) ≠ none)
    (hfail : ∀ t, windowAt s.charBuf w = some t → windowDecoder (decWindow s.params) last k w t = none) :
    wholeDecode s last = .next (raiseBufferErr s .invalidCharacter w) := by
  rw [wholeDecode_of_fits _ hin hlen,
    (windowsOf_windowAt s.charBuf).decodeWindows_badChar hp hw hgood hwritten hfail]
  rfl

end

/-! ## Marks and bad characters of the buffer -/

/-- The trailing marks of a window of `CHAR_BUF` are those its decoder counts (R133). -/
theorem trailingMarks_iff {s : State} {j m : Nat} {t : Quint Word} (ht : windowAt s.charBuf j = some t) :
    TrailingMarks s j m ↔ markCount s.params t = m := by
  have hentry := (windowAt_eq_some _ _ _).mp ht
  rw [markCount_eq, TrailingMarks]
  refine and_congr_right fun _ => and_congr (forall_congr' fun q => ?_) (forall_congr' fun _ => ?_)
  · exact forall_congr' fun _ => forall_congr' fun hq => by rw [hentry q hq]
  · rw [hentry (4 - m) (by omega)]

section
variable {s : State} (hp : s.params.Valid) {w q : Nat} {t : Quint Word} (ht : windowAt s.charBuf w = some t)
include hp ht

theorem decWindow_of_badEntry (hq : q < 5) (hbad : BadEntry s (5 * w + q)) : decWindow s.params t = none := by
  obtain ⟨c, hc, hinvalid⟩ := hbad
  exact (windowsOf_windowAt s.charBuf).decWindow_eq_none hp ht hq hc hinvalid

theorem decTail_of_badEntry {m : Nat} (hm : TrailingMarks s w m) (hq : q < 5 - m) (hbad : BadEntry s (5 * w + q)) :
    decTail s.params t = none := by
  obtain ⟨c, hc, hinvalid⟩ := hbad
  obtain rfl := (trailingMarks_iff ht).mp hm
  rw [(windowAt_eq_some _ _ _).mp ht q (by omega)] at hc
  exact decTail_of_badChar hp hq hc hinvalid

end

/-- Settles O28: the checks, the loop over alphabet characters, and the loop to the first bad character. -/
theorem decodeStrictResult : Obligations.DecodeStrictResult := by
  rintro s _ k hp rfl
  refine ⟨wholeDecode_of_exceeds (decWindow s.params), wholeDecode_of_badLength (decWindow s.params),
    fun v hin hlen hchar => ?_,
    fun w hin hlen hw hgood hwritten hbad => ?_⟩
  · exact exec_decodeStrict_of_chars hp hin hlen (hlen ▸ hchar)
  · obtain ⟨q, hq, hbad⟩ := hbad
    refine wholeDecode_of_badWindow hp hin hlen hw hgood hwritten fun t ht => ?_
    rw [windowDecoder_self]
    exact decWindow_of_badEntry hp ht hq hbad

/-- Settles O27: as O28, the last window by the rules of its marks. -/
theorem decodeDefaultResult : Obligations.DecodeDefaultResult := by
  rintro s _ k hp rfl
  refine ⟨wholeDecode_of_exceeds (decTail s.params), wholeDecode_of_badLength (decTail s.params),
    fun m v hin hlen hm hchar hmark => ?_,
    fun w hin hlen hw hgood hwritten hbad => ?_⟩
  · rw [hlen] at hchar hmark
    exact exec_decodeDefault_of_chars hp hin hlen hm hchar hmark
  · refine wholeDecode_of_badWindow hp hin hlen hw hgood hwritten fun t ht => ?_
    obtain ⟨hinner, q, hq, hbad⟩ | ⟨hlast, m, hm, hfail⟩ := hbad
    · rw [windowDecoder_of_ne (by omega)]
      exact decWindow_of_badEntry hp ht hq hbad
    · rw [windowDecoder_of_eq hlast]
      obtain hmany | ⟨q, hq, hbad⟩ := hfail
      · exact decTail_of_four_le (((trailingMarks_iff ht).mp hm).symm ▸ hmany)
      · exact decTail_of_badEntry hp ht hm hq hbad

/-! ## DECODE.PADDED -/

theorem exec_decodePadded (s : State) : exec .decodePadded s = execDecodePadded s := rfl

theorem exec_decodePadded_of_exceeds {s : State}
    (h : s.params.bufCap < s.inLen.toNat ∨ s.params.bufCap < 4 * ceil5 s.inLen.toNat) :
    exec .decodePadded s = .next (raiseBufferErr s .capacityExceeded 0) := by
  rw [exec_decodePadded, execDecodePadded]
  split
  · rfl
  · next hin => rw [if_pos (h.resolve_left hin)]

/-- The string that DECODE.PADDED decodes: the input, and the pad character up to a whole window (R152). -/
def paddedEntry (s : State) (i : Nat) : Option Word :=
  if i < s.inLen.toNat then s.charBuf.read i
  else if i < 5 * ceil5 s.inLen.toNat then charOfDigit s.params 0
  else none

theorem paddedEntry_of_lt {s : State} {i : Nat} (hi : i < s.inLen.toNat) : paddedEntry s i = s.charBuf.read i :=
  if_pos hi

theorem paddedEntry_of_le {s : State} {i : Nat} (hbeyond : s.inLen.toNat ≤ i) (hi : i < 5 * ceil5 s.inLen.toNat) :
    paddedEntry s i = charOfDigit s.params 0 := by
  rw [paddedEntry, if_neg (Nat.not_lt.mpr hbeyond), if_pos hi]

theorem padding_getElem? (p : Params) (len i : Nat) :
    (padding p len)[i]? = if len + i < 5 * ceil5 len then charOfDigit p 0 else none := by
  have hpad : padding p len = List.replicate (5 * ceil5 len - len) (charEntry (padChar p)) := by
    rw [padding]
    split
    · next hshort => rw [show 5 * ceil5 len - len = 5 - len % 5 by simp only [ceil5]; omega]
    · next hwhole => rw [show 5 * ceil5 len - len = 0 by simp only [ceil5]; omega, List.replicate_zero]
  rw [hpad, List.getElem?_replicate]
  exact if_congr (by omega) (charOfDigit_lt p 0).symm rfl

theorem windowsOf_padded {s : State} {cs : List Word} (hread : s.charBuf.readRange 0 s.inLen.toNat = some cs) :
    WindowsOf (windowOf (cs ++ padding s.params s.inLen.toNat)) (paddedEntry s) := by
  obtain ⟨hlen, hentry⟩ := (Memory.readRange_eq_some _ _ _ _).mp hread
  have hstring : ∀ i, (cs ++ padding s.params s.inLen.toNat)[i]? = paddedEntry s i := by
    intro i
    rw [paddedEntry]
    split
    · next hi => rw [List.getElem?_append_left (hlen ▸ hi), ← hentry i hi, Nat.zero_add]
    · next hi =>
      rw [List.getElem?_append_right (by omega), padding_getElem?, hlen,
        show s.inLen.toNat + (i - s.inLen.toNat) = i by omega]
  intro j t
  simp only [windowOf_eq_some, hstring]

/-- The checks passed and the input written, DECODE.PADDED ends as its loop does. -/
theorem exec_decodePadded_of_fits {s : State} (hin : s.inLen.toNat ≤ s.params.bufCap)
    (hout : 4 * ceil5 s.inLen.toNat ≤ s.params.bufCap) (hwritten : CharsWritten s) :
    ∃ window, WindowsOf window (paddedEntry s) ∧
      exec .decodePadded s = finishDecode s
        (decodeWindows window (decWindow s.params) (decWindow s.params) (ceil5 s.inLen.toNat) 0) := by
  obtain ⟨cs, hread⟩ := readRange_of_charsWritten hwritten
  refine ⟨_, windowsOf_padded hread, ?_⟩
  rw [exec_decodePadded, execDecodePadded, if_neg (Nat.not_lt.mpr hin), if_neg (Nat.not_lt.mpr hout), hread]

/-- DECODE.PADDED of alphabet characters, the digits beyond them 0 (R152). -/
theorem exec_decodePadded_of_chars {s : State} (hp : s.params.Valid) (hin : s.inLen.toNat ≤ s.params.bufCap)
    (hout : 4 * ceil5 s.inLen.toNat ≤ s.params.bufCap) {v : Nat → Nat}
    (hchar : ∀ i, i < s.inLen.toNat → v i < 85 ∧ s.charBuf.read i = charOfDigit s.params (v i))
    (hpad : ∀ i, s.inLen.toNat ≤ i → v i = 0) :
    ∃ t, exec .decodePadded s = .next t ∧
      WroteBytes s t (4 * ceil5 s.inLen.toNat) (decodedByte v) := by
  have hwritten : CharsWritten s := fun i hi => by
    rw [(hchar i hi).2]
    exact charOfDigit_ne_none _ (hchar i hi).1
  have hentry : ∀ i, i < 5 * ceil5 s.inLen.toNat → v i < 85 ∧ paddedEntry s i = charOfDigit s.params (v i) := by
    intro i hi
    obtain hinput | hbeyond := Nat.lt_or_ge i s.inLen.toNat
    · rw [paddedEntry_of_lt hinput]
      exact hchar i hinput
    · rw [paddedEntry_of_le hbeyond hi, hpad i hbeyond]
      exact ⟨by decide, rfl⟩
  obtain ⟨window, hwin, hexec⟩ := exec_decodePadded_of_fits hin hout hwritten
  have hwindow : ∀ j, j < ceil5 s.inLen.toNat →
      ∃ t, window j = some t ∧ decWindow s.params t = some (windowBytes v j) :=
    fun j hj => hwin.decWindow_eq hp (fun q hq => (hentry _ (by omega)).1) fun q hq => (hentry _ (by omega)).2
  rw [hexec]
  exact finishDecode_of_output (decodeWindows_of_bytes (m := 0) (by decide) (fun j hj => hwindow j (by omega))
    fun j hj => hwindow j (by omega))

/-- No entry of the padded string is missing where the input is written. -/
theorem paddedEntry_ne_none {s : State} (hwritten : CharsWritten s) {i : Nat} (hi : i < 5 * ceil5 s.inLen.toNat) :
    paddedEntry s i ≠ none := by
  obtain hinput | hbeyond := Nat.lt_or_ge i s.inLen.toNat
  · rw [paddedEntry_of_lt hinput]
    exact hwritten i hinput
  · rw [paddedEntry_of_le hbeyond hi]
    exact charOfDigit_ne_none _ (by decide)

/-- A bad character of the input makes its window fail. -/
theorem padded_decoder_of_badEntry {s : State} (hp : s.params.Valid) {window : Nat → Option (Quint Word)}
    (hwin : WindowsOf window (paddedEntry s)) {k w q : Nat} (hq : q < 5) (hinput : 5 * w + q < s.inLen.toNat)
    (hbad : BadEntry s (5 * w + q)) (t : Quint Word) (ht : window w = some t) :
    windowDecoder (decWindow s.params) (decWindow s.params) k w t = none := by
  obtain ⟨c, hc, hinvalid⟩ := hbad
  rw [windowDecoder_self]
  exact hwin.decWindow_eq_none hp ht hq ((paddedEntry_of_lt hinput).trans hc) hinvalid

/-- Settles O29: the two checks, and the loop over the padded string as in O28. -/
theorem decodePaddedResult : Obligations.DecodePaddedResult := by
  rintro s _ _ hp rfl rfl
  refine ⟨exec_decodePadded_of_exceeds, fun v hin hout => exec_decodePadded_of_chars hp hin hout,
    fun w hin hout hwritten hgood hbad => ?_⟩
  obtain ⟨q, hq, hinput, hbad⟩ := hbad
  obtain ⟨window, hwin, hexec⟩ := exec_decodePadded_of_fits hin hout hwritten
  have hw : w < ceil5 s.inLen.toNat := by simp only [ceil5]; omega
  have hgood' : ∀ i, i < 5 * w → ∃ c, paddedEntry s i = some c ∧ ValidChar s.params c := fun i hi => by
    rw [paddedEntry_of_lt (by omega)]
    exact hgood i hi
  have hrun := hwin.decodeWindows_badChar hp hw hgood'
    (fun q hq => paddedEntry_ne_none hwritten (by omega)) (padded_decoder_of_badEntry hp hwin hq hinput hbad)
  rw [hexec, hrun]
  rfl

end Sys2Proof.Machine
end

section
/-! SUPPORT. The fill digit of Default decode (R135), and an encode followed by its variant's decode (R160-R162). -/

namespace Sys2Proof.Machine

/-! ## Filled values -/

/-- Digit `q` of a value whose last `m` digits are replaced by the fill digit (R134). -/
def filledDigit (w m q : Nat) : Nat := if q < 5 - m then digitOf w q else fillDigit

/-- The value of those digits (R135). -/
def filledValue (w m : Nat) : Nat := w - w % 85 ^ m + (85 ^ m - 1)

theorem filledDigit_of_lt {w m q : Nat} (hq : q < 5 - m) : filledDigit w m q = digitOf w q := if_pos hq

theorem filledDigit_of_le {w m q : Nat} (hq : 5 - m ≤ q) : filledDigit w m q = fillDigit := if_neg (Nat.not_lt.mpr hq)

theorem filledDigit_lt (w m q : Nat) : filledDigit w m q < 85 := by
  rw [filledDigit]
  split
  · exact digitOf_lt w q
  · decide

theorem accumulate_filledDigit {w m : Nat} (hw : w < 85 ^ 5) (hm : m ≤ 3) :
    accumulate (quintOf (filledDigit w m)) = filledValue w m := by
  norm_num at hw
  simp only [accumulate, quintOf, filledDigit, filledValue, fillDigit, digitOf]
  interval_cases m <;> norm_num <;> omega

theorem le_filledValue (w m : Nat) : w ≤ filledValue w m := by
  have hmod := Nat.mod_lt w (Nat.pow_pos (n := m) (show 0 < 85 by decide))
  have hle := Nat.mod_le w (85 ^ m)
  rw [filledValue]
  omega

theorem filledValue_lt (w m : Nat) : filledValue w m < w + 85 ^ m := by
  have hpos := Nat.pow_pos (n := m) (show 0 < 85 by decide)
  have hle := Nat.mod_le w (85 ^ m)
  rw [filledValue]
  omega

/-- A fill of `m` digits stays below the next multiple of `256 ^ m`, so it does not reach the bytes above (R135). -/
theorem filledValue_div {w m : Nat} (hdvd : 256 ^ m ∣ w) : filledValue w m / 256 ^ m = w / 256 ^ m := by
  have hlo := le_filledValue w m
  have hhi := filledValue_lt w m
  have hpow : 85 ^ m ≤ 256 ^ m := Nat.pow_le_pow_left (by decide) m
  have hmul := Nat.div_mul_cancel hdvd
  refine Nat.div_eq_of_lt_le (by omega) ?_
  rw [Nat.succ_mul]
  omega

theorem byteOfValue_filledValue {w m q : Nat} (hdvd : 256 ^ m ∣ w) (hq : q < 4 - m) :
    byteOfValue (filledValue w m) q = byteOfValue w q := by
  have hpow : 256 ^ (3 - q) = 256 ^ m * 256 ^ (3 - q - m) := by rw [← pow_add]; congr 1; omega
  rw [byteOfValue, byteOfValue, hpow, ← Nat.div_div_eq_div_mul, filledValue_div hdvd, Nat.div_div_eq_div_mul]

/-! ## Blocks of bytes -/

theorem listBlock_eq_toNat_pack (bs : List Byte) (j : Nat) :
    listBlock bs j =
      (pack (bs.getD (4 * j) 0) (bs.getD (4 * j + 1) 0) (bs.getD (4 * j + 2) 0) (bs.getD (4 * j + 3) 0)).toNat :=
  (toNat_pack _ _ _ _).symm

theorem listBlock_lt (bs : List Byte) (j : Nat) : listBlock bs j < 2 ^ 32 := by
  rw [listBlock_eq_toNat_pack]
  exact BitVec.isLt _

theorem listBlock_lt_pow_85 (bs : List Byte) (j : Nat) : listBlock bs j < 85 ^ 5 :=
  (listBlock_lt bs j).trans (by decide)

theorem byteOfValue_listBlock (bs : List Byte) (j : Nat) {q : Nat} (hq : q < 4) :
    byteOfValue (listBlock bs j) q = bs.getD (4 * j + q) 0 := by
  have hbyte := bytesOf_getElem? (pack (bs.getD (4 * j) 0) (bs.getD (4 * j + 1) 0) (bs.getD (4 * j + 2) 0)
    (bs.getD (4 * j + 3) 0)) q hq
  rw [bytesOf_pack, ← listBlock_eq_toNat_pack] at hbyte
  refine Option.some.inj (hbyte.symm.trans ?_)
  interval_cases q <;> rfl

theorem getD_of_length_le {bs : List Byte} {i : Nat} (hi : bs.length ≤ i) : bs.getD i 0 = 0 := by
  rw [List.getD_eq_getElem?_getD, List.getElem?_eq_none hi, Option.getD_none]

/-- A block that lacks its last `m` bytes is a multiple of `256 ^ m`. -/
theorem dvd_listBlock {bs : List Byte} {j m : Nat} (hm : m ≤ 3) (hshort : bs.length + m ≤ 4 * (j + 1)) :
    256 ^ m ∣ listBlock bs j := by
  have hzero : ∀ q, 4 - m ≤ q → (bs.getD (4 * j + q) 0).toNat = 0 := fun q hq => by
    rw [getD_of_length_le (by omega)]
    rfl
  rw [listBlock]
  interval_cases m
  · exact one_dvd _
  · rw [hzero 3 (by omega)]
    omega
  · rw [hzero 2 (by omega), hzero 3 (by omega)]
    omega
  · rw [hzero 1 (by omega), hzero 2 (by omega), hzero 3 (by omega)]
    omega

/-! ## The tail of a Default encode -/

theorem Quint.exists_toList {α : Type} {l : List α} (h : l.length = 5) : ∃ t : Quint α, t.toList = l :=
  match l, h with
  | [a, b, c, d, e], _ => ⟨⟨a, b, c, d, e⟩, rfl⟩

/-- The top bytes of a filled block are the bytes the block has. -/
theorem take_bytesOf_filledDigit {bs : List Byte} {m : Nat} (hm : m ≤ 3) (hlen : bs.length + m = 4) :
    (bytesOf (valueOf (quintOf (filledDigit (listBlock bs 0) m)))).take (4 - m) = bs := by
  refine List.ext_getElem? fun q => ?_
  by_cases hq : q < 4 - m
  · rw [List.getElem?_take_of_lt hq, bytesOf_getElem? _ _ (by omega), valueOf, byteOfValue_ofNat _ _ (by omega),
      accumulate_filledDigit (listBlock_lt_pow_85 bs 0) hm,
      byteOfValue_filledValue (dvd_listBlock hm (by omega)) hq, byteOfValue_listBlock _ _ (by omega), Nat.mul_zero,
      Nat.zero_add, List.getD_eq_getElem _ _ (by omega), List.getElem?_eq_getElem (by omega)]
  · rw [List.getElem?_eq_none (by simp only [List.length_take, length_bytesOf]; omega),
      List.getElem?_eq_none (by omega)]

/-- The largest filled value, of the tail `FF FF FF` (R135). -/
theorem filledValue_le {w m : Nat} (hw : w < 2 ^ 32) (hdvd : 256 ^ m ∣ w) (h1 : 1 ≤ m) (h3 : m ≤ 3) :
    filledValue w m ≤ 0xFFFFFF54 := by
  have hlt := filledValue_lt w m
  interval_cases m <;> omega

/-- Settles O23: the window's marks are filled to a value whose top bytes are the tail's. -/
theorem tailFillIsExact : Obligations.TailFillIsExact := by
  rintro p t m w hp h1 h3 rfl hw
  have hblock : w = listBlock t 0 := by
    have hlast : (t.getD (4 * 0 + 3) 0).toNat = 0 := congrArg BitVec.toNat (getD_of_length_le (by omega))
    rw [hw, listBlock, hlast, Nat.mul_zero, Nat.zero_add, Nat.zero_add, Nat.add_zero]
  rw [hblock]
  have hm : 4 - t.length ≤ 3 := by omega
  have hdvd : 256 ^ (4 - t.length) ∣ listBlock t 0 := dvd_listBlock hm (by omega)
  obtain ⟨q, hq⟩ := Quint.exists_toList (length_encTail p t (by omega))
  have hchar : ∀ i, i < 5 - (4 - t.length) →
      q.toList[i]? = charOfDigit p (filledDigit (listBlock t 0) (4 - t.length) i) := fun i hi => by
    rw [hq, encTail_getElem? p t (by omega) i (by omega), if_pos (by omega), filledDigit_of_lt hi]
  have hmark : ∀ i, 5 - (4 - t.length) ≤ i → i < 5 → q.toList[i]? = some (markEntry p) := fun i hi h5 => by
    rw [hq, encTail_getElem? p t (by omega) i h5, if_neg (by omega)]
  have hfill : ∀ i, 5 - (4 - t.length) ≤ i → i < 5 →
      filledDigit (listBlock t 0) (4 - t.length) i = fillDigit := fun i hi _ => filledDigit_of_le hi
  refine ⟨q, quintOf (filledDigit (listBlock t 0) (4 - t.length)), hq, markCount_of_chars hp hm hchar hmark,
    tailDigits_of_chars hp hchar hfill, ?_⟩
  rw [accumulate_filledDigit (listBlock_lt_pow_85 t 0) hm]
  refine ⟨rfl, le_filledValue _ _, filledValue_lt _ _, filledValue_le (listBlock_lt t 0) hdvd (by omega) hm, ?_⟩
  rw [decTail_of_chars hp hm hchar hmark hfill, take_bytesOf_filledDigit hm (by omega)]

/-! ## The digits of an encode's output -/

/-- The digits of a string of blocks with values `w`, the last `m j` of block `j` filled. -/
def filledDigits (w m : Nat → Nat) (i : Nat) : Nat := filledDigit (w (i / 5)) (m (i / 5)) (i % 5)

theorem filledDigits_lt (w m : Nat → Nat) (i : Nat) : filledDigits w m i < 85 := filledDigit_lt _ _ _

theorem windowValue_filledDigits {w m : Nat → Nat} {j : Nat} (hw : w j < 85 ^ 5) (hm : m j ≤ 3) :
    windowValue (filledDigits w m) j = filledValue (w j) (m j) := by
  have hdigit : ∀ q, q < 5 → filledDigits w m (5 * j + q) = filledDigit (w j) (m j) q := fun q hq => by
    rw [filledDigits, show (5 * j + q) / 5 = j by omega, show (5 * j + q) % 5 = q by omega]
  obtain ⟨h0, h1, h2, h3, h4⟩ := forall_lt_five.mp hdigit
  rw [Nat.add_zero] at h0
  rw [windowValue, h0, h1, h2, h3, h4, ← accumulate_filledDigit hw hm]
  rfl

/-- A character of the zero-padded input, by its digit. -/
theorem encodedEntry_eq_filledDigits (s : State) {m : Nat → Nat} {i : Nat} (hi : i % 5 < 5 - m (i / 5)) :
    encodedEntry s i = charOfDigit s.params (filledDigits (inputBlock s) m i) := by
  rw [encodedEntry, filledDigits, filledDigit_of_lt hi]

section
variable {s : State} {bs : List Byte} (hread : s.byteBuf.readRange 0 s.inLen.toNat = some bs)
include hread

/-- Decoding the digits of an encode's output gives the zero-padded input's bytes, but those under the marks. -/
theorem decodedByte_filledDigits {m : Nat → Nat} {i : Nat} (hdvd : 256 ^ m (i / 4) ∣ inputBlock s (i / 4))
    (hi : i % 4 < 4 - m (i / 4)) : decodedByte (filledDigits (inputBlock s) m) i = bs.getD i 0 := by
  have hblock := inputBlock_eq hread (i / 4)
  rw [decodedByte, windowValue_filledDigits (hblock ▸ listBlock_lt_pow_85 bs _) (by omega),
    byteOfValue_filledValue hdvd hi, hblock, byteOfValue_listBlock _ _ (Nat.mod_lt _ (by decide)), Nat.div_add_mod]

theorem some_getD_of_readRange {i : Nat} (hi : i < s.inLen.toNat) : some (bs.getD i 0) = s.byteBuf.read i := by
  have hlen := length_of_readRange hread
  rw [← getElem?_of_readRange hread hi, List.getD_eq_getElem _ _ (by omega), List.getElem?_eq_getElem (by omega)]

end

/-! ## From an encode to a decode -/

/-- `t` with its `OUT_LEN` copied to `IN_LEN` and any contents of `BYTE_BUF` (R160). -/
def handedOver (t : State) (m : Memory 8) : State := { t with inLen := t.outLen, byteBuf := m }

/-- The operands of a decode that follows an encode (R160). -/
theorem handedOver_operands {s t : State} {len : Nat} {entry : Nat → Option Word} (h : WroteChars s t len entry)
    (hp : s.params.Valid) (hfit : len ≤ s.params.bufCap) (m : Memory 8) :
    (handedOver t m).params = s.params ∧ (handedOver t m).inLen.toNat = len ∧
      (handedOver t m).inLen.toNat ≤ (handedOver t m).params.bufCap ∧
      ∀ i, i < len → (handedOver t m).charBuf.read i = entry i := by
  have hlen : (handedOver t m).inLen.toNat = len := h.toNat_outLen hp hfit
  obtain ⟨ht, hentry, -⟩ := h
  have hparams : t.params = s.params := by rw [ht]
  refine ⟨hparams, hlen, ?_, hentry⟩
  rw [hlen, handedOver, hparams]
  exact hfit

theorem WroteBytes.status {s t : State} {len : Nat} {byte : Nat → Byte} (h : WroteBytes s t len byte) :
    t.err = 0 ∧ t.outLen = BitVec.ofNat 32 len :=
  ⟨congrArg State.err h.1, congrArg State.outLen h.1⟩

theorem ofNat_toNat_inLen (s : State) : BitVec.ofNat 32 s.inLen.toNat = s.inLen := by
  rw [BitVec.ofNat_toNat, BitVec.setWidth_eq]

/-! ## The Default round trip -/

/-- The bytes that block `j` of the input lacks: the marks of window `j` of a Default encode (R131). -/
def missingBytes (s : State) (j : Nat) : Nat := 4 * (j + 1) - s.inLen.toNat

/-- The marks of a Default encode's output, all in its last window (R131). -/
def totalMarks (s : State) : Nat := 4 * ceil4 s.inLen.toNat - s.inLen.toNat

/-- The digits that the output of ENCODE.DEFAULT stands for, a mark for the fill digit (R135). -/
def defaultDigits (s : State) : Nat → Nat := filledDigits (inputBlock s) (missingBytes s)

section
variable {s : State} {i : Nat}

/-- An entry before the marks is its digit's character. -/
theorem defaultEntry_of_lt (hi : i < 5 * ceil4 s.inLen.toNat - totalMarks s) :
    defaultEntry s i = charOfDigit s.params (defaultDigits s i) := by
  simp only [totalMarks, ceil4] at hi
  rw [defaultEntry, if_pos (by omega), defaultDigits,
    encodedEntry_eq_filledDigits s (m := missingBytes s) (by rw [missingBytes]; omega)]

/-- The entries behind are marks, each for the fill digit. -/
theorem defaultEntry_of_le (hi : 5 * ceil4 s.inLen.toNat - totalMarks s ≤ i)
    (hout : i < 5 * ceil4 s.inLen.toNat) :
    defaultDigits s i = 84 ∧ defaultEntry s i = some (markEntry s.params) := by
  simp only [totalMarks, ceil4] at hi hout
  exact ⟨filledDigit_of_le (by rw [missingBytes]; omega), if_neg (by omega)⟩

/-- The fill leaves every byte of the input as it was. -/
theorem decodedByte_defaultDigits {bs : List Byte} (hread : s.byteBuf.readRange 0 s.inLen.toNat = some bs)
    (hi : i < s.inLen.toNat) : decodedByte (defaultDigits s) i = bs.getD i 0 := by
  have hdvd : 256 ^ missingBytes s (i / 4) ∣ inputBlock s (i / 4) := by
    rw [inputBlock_eq hread]
    obtain hshort | hfull := Nat.lt_or_ge s.inLen.toNat (4 * (i / 4 + 1))
    · refine dvd_listBlock (by rw [missingBytes]; omega) ?_
      rw [length_of_readRange hread, missingBytes]
      omega
    · rw [missingBytes, Nat.sub_eq_zero_of_le hfull]
      exact one_dvd _
  exact decodedByte_filledDigits hread hdvd (by rw [missingBytes]; omega)

end

/-- Settles O30: the digits of the encode's output, its marks as the fill digit, decode to the input (R135). -/
theorem defaultRoundTrip : Obligations.DefaultRoundTrip := by
  rintro s _ hp rfl hfit hwritten
  obtain ⟨bs, hread⟩ := readRange_of_bytesWritten hwritten
  obtain ⟨t, hexec, ht⟩ := exec_encodeDefault_of_fits hfit hwritten
  refine ⟨t, hexec, fun mem => ?_⟩
  obtain ⟨hparams, hlen, hin, hentry⟩ := handedOver_operands ht hp hfit mem
  obtain ⟨u, hexec', hu⟩ := exec_decodeDefault_of_chars (v := defaultDigits s)
    (m := totalMarks s) (hparams ▸ hp) hin hlen
    (by simp only [totalMarks, ceil4]; omega)
    (fun i hi => ⟨filledDigits_lt _ _ i, by rw [hentry i (by omega), hparams, defaultEntry_of_lt hi]⟩)
    fun i hi hout => by
      rw [hentry i hout, hparams]
      exact defaultEntry_of_le hi hout
  rw [show 4 * ceil4 s.inLen.toNat - totalMarks s = s.inLen.toNat by
    simp only [totalMarks, ceil4]; omega] at hu
  refine ⟨u, hexec', hu.status.1, hu.status.2.trans (ofNat_toNat_inLen s), fun i hi => ?_⟩
  rw [hu.2.1 i hi, decodedByte_defaultDigits hread hi, some_getD_of_readRange hread hi]

/-! ## The other round trips -/

/-- The digits that the output of an encode without marks stands for. -/
def inputDigits (s : State) : Nat → Nat := filledDigits (inputBlock s) fun _ => 0

theorem encodedEntry_eq_inputDigits (s : State) (i : Nat) :
    encodedEntry s i = charOfDigit s.params (inputDigits s i) :=
  encodedEntry_eq_filledDigits s (m := fun _ => 0) (Nat.mod_lt _ (by decide))

/-- With no mark, the decoded bytes are those of the zero-padded input. -/
theorem decodedByte_inputDigits {s : State} {bs : List Byte}
    (hread : s.byteBuf.readRange 0 s.inLen.toNat = some bs) (i : Nat) :
    decodedByte (inputDigits s) i = bs.getD i 0 :=
  decodedByte_filledDigits hread (one_dvd _) (Nat.mod_lt _ (by decide))

/-- The digits beyond the input's blocks are 0. -/
theorem inputDigits_of_le {s : State} {i : Nat} (hi : 5 * ceil4 s.inLen.toNat ≤ i) : inputDigits s i = 0 := by
  have hbyte : ∀ b, s.inLen.toNat ≤ b → inputByte s b = 0 := fun b hb => if_neg (Nat.not_lt.mpr hb)
  have hbeyond : s.inLen.toNat ≤ 4 * (i / 5) := by simp only [ceil4] at hi; omega
  have hblock : inputBlock s (i / 5) = 0 := by
    rw [inputBlock, hbyte _ hbeyond, hbyte _ (by omega), hbyte _ (by omega), hbyte _ (by omega)]
    decide
  rw [inputDigits, filledDigits, hblock, filledDigit_of_lt (Nat.mod_lt _ (by decide)), digitOf, Nat.zero_div]

/-- Settles O31: whole blocks have no tail, and so no mark and no padding. -/
theorem strictRoundTrip : Obligations.StrictRoundTrip := by
  rintro s _ rfl
  refine ⟨fun hp hwhole hfit hwritten => ?_, fun hlen hin => ⟨_, exec_encodeStrict_of_badLength hin hlen, rfl⟩⟩
  obtain ⟨bs, hread⟩ := readRange_of_bytesWritten hwritten
  obtain ⟨t, hexec, ht⟩ := exec_encodeStrict_of_fits hwhole hfit hwritten
  refine ⟨t, hexec, fun mem => ?_⟩
  obtain ⟨hparams, hlen, hin, hentry⟩ := handedOver_operands ht hp hfit mem
  obtain ⟨u, hexec', hu⟩ := exec_decodeStrict_of_chars (v := inputDigits s) (hparams ▸ hp) hin hlen
    fun i hi => ⟨filledDigits_lt _ _ i, by rw [hentry i hi, hparams, encodedEntry_eq_inputDigits]⟩
  rw [show 4 * (s.inLen.toNat / 4) = s.inLen.toNat by omega] at hu
  refine ⟨u, hexec', hu.status.1, hu.status.2.trans (ofNat_toNat_inLen s), fun i hi => ?_⟩
  rw [hu.2.1 i hi, decodedByte_inputDigits hread, some_getD_of_readRange hread hi]

/-- Settles O32: the decode gives the zero-padded input whole. -/
theorem paddedLossiness : Obligations.PaddedLossiness := by
  rintro s _ hp rfl hfit hwritten
  obtain ⟨bs, hread⟩ := readRange_of_bytesWritten hwritten
  obtain ⟨t, hexec, ht⟩ := exec_encodePadded_of_fits hfit hwritten
  refine ⟨t, hexec, fun mem => ?_⟩
  obtain ⟨hparams, hlen, hin, hentry⟩ := handedOver_operands ht hp hfit mem
  have hwindows : ceil5 (handedOver t mem).inLen.toNat = ceil4 s.inLen.toNat := by rw [hlen, ceil5]; omega
  obtain ⟨u, hexec', hu⟩ := exec_decodePadded_of_chars (v := inputDigits s) (hparams ▸ hp) hin
    (by rw [hwindows, hparams]; simp only [ceil4]; omega)
    (fun i hi => ⟨filledDigits_lt _ _ i, by rw [hentry i (hlen ▸ hi), hparams, encodedEntry_eq_inputDigits]⟩)
    fun i hi => inputDigits_of_le (hlen ▸ hi)
  rw [hwindows] at hu
  have hbyte : ∀ i, i < 4 * ceil4 s.inLen.toNat → u.byteBuf.read i = some (bs.getD i 0) := fun i hi => by
    rw [hu.2.1 i hi, decodedByte_inputDigits hread]
  refine ⟨u, hexec', hu.status.1, ?_, by omega, fun i hi => ?_, fun i hn hi => ?_⟩
  · rw [hu.status.2]
    exact toNat_ofNat_of_fits hp (by simp only [ceil4]; omega)
  · rw [hbyte i (by simp only [ceil4]; omega), some_getD_of_readRange hread hi]
  · rw [hbyte i hi, getD_of_length_le (by rw [length_of_readRange hread]; exact hn)]

end Sys2Proof.Machine
end

section
/-! SUPPORT. What every success and every bad input of the buffer commands has in common (R163-R165). -/

namespace Sys2Proof.Machine

/-! ## Successes -/

/-- A buffer command that answers with `ERR = NONE` has not failed (R171). -/
theorem ne_raiseBufferErr {s t : State} (herr : t.err = 0) {kind : ErrKind} (hkind : kind.code ≠ 0) (win : Nat) :
    t ≠ raiseBufferErr s kind win := by
  rintro rfl
  exact hkind herr

section
variable {s t : State} (herr : t.err = 0)
include herr

theorem encodeDefault_success (h : exec .encodeDefault s = .next t) :
    5 * ceil4 s.inLen.toNat ≤ s.params.bufCap ∧ WroteChars s t (5 * ceil4 s.inLen.toNat) (defaultEntry s) := by
  obtain hraised | ⟨-, hfit, bs, hread, rfl⟩ := execEncodeDefault_next h
  · exact absurd hraised (ne_raiseBufferErr herr (by decide) 0)
  · exact ⟨hfit, encodeDefault_wrote hread⟩

theorem encodePadded_success (h : exec .encodePadded s = .next t) :
    5 * ceil4 s.inLen.toNat ≤ s.params.bufCap ∧ WroteChars s t (5 * ceil4 s.inLen.toNat) (encodedEntry s) := by
  obtain hraised | ⟨-, hfit, bs, hread, rfl⟩ := execEncodePadded_next h
  · exact absurd hraised (ne_raiseBufferErr herr (by decide) 0)
  · exact ⟨hfit, encodePadded_wrote hread⟩

theorem encodeStrict_success (h : exec .encodeStrict s = .next t) :
    s.inLen.toNat % 4 = 0 ∧ 5 * (s.inLen.toNat / 4) ≤ s.params.bufCap ∧
      WroteChars s t (5 * (s.inLen.toNat / 4)) (encodedEntry s) := by
  obtain hraised | ⟨-, hraised⟩ | ⟨-, hwhole, hfit, bs, hread, rfl⟩ := execEncodeStrict_next h
  · exact absurd hraised (ne_raiseBufferErr herr (by decide) 0)
  · exact absurd hraised (ne_raiseBufferErr herr (by decide) 0)
  · exact ⟨hwhole, hfit, encodeStrict_wrote hread hwhole⟩

theorem decodeStrict_success (h : exec .decodeStrict s = .next t) :
    s.inLen.toNat ≤ s.params.bufCap ∧ s.inLen.toNat % 5 = 0 ∧
      ∃ out : List Byte, out.length = 4 * (s.inLen.toNat / 5) ∧ t = commitBytes s out := by
  obtain hraised | ⟨-, hraised⟩ | ⟨hin, hwhole, ⟨out, hrun, ht⟩ | ⟨j, -, hraised⟩⟩ := execDecodeStrict_next h
  · exact absurd hraised (ne_raiseBufferErr herr (by decide) 0)
  · exact absurd hraised (ne_raiseBufferErr herr (by decide) 0)
  · exact ⟨hin, hwhole, out, length_decodeWindows_full hrun, ht⟩
  · exact absurd hraised (ne_raiseBufferErr herr (by decide) j)

theorem decodeDefault_success (h : exec .decodeDefault s = .next t) :
    s.inLen.toNat ≤ s.params.bufCap ∧ s.inLen.toNat % 5 = 0 ∧
      ∃ out, decodeWindows (windowAt s.charBuf) (decWindow s.params) (decTail s.params) (s.inLen.toNat / 5) 0
          = .output out ∧ t = commitBytes s out := by
  obtain hraised | ⟨-, hraised⟩ | ⟨hin, hwhole, ⟨out, hrun, ht⟩ | ⟨j, -, hraised⟩⟩ := execDecodeDefault_next h
  · exact absurd hraised (ne_raiseBufferErr herr (by decide) 0)
  · exact absurd hraised (ne_raiseBufferErr herr (by decide) 0)
  · exact ⟨hin, hwhole, out, hrun, ht⟩
  · exact absurd hraised (ne_raiseBufferErr herr (by decide) j)

theorem decodePadded_success (h : exec .decodePadded s = .next t) :
    4 * ceil5 s.inLen.toNat ≤ s.params.bufCap ∧
      ∃ out : List Byte, out.length = 4 * ceil5 s.inLen.toNat ∧ t = commitBytes s out := by
  obtain hraised | ⟨-, hfit, cs, -, ⟨out, hrun, ht⟩ | ⟨j, -, hraised⟩⟩ := execDecodePadded_next h
  · exact absurd hraised (ne_raiseBufferErr herr (by decide) 0)
  · exact ⟨hfit, out, length_decodeWindows_full hrun, ht⟩
  · exact absurd hraised (ne_raiseBufferErr herr (by decide) j)

end

/-! ## Output lengths -/

/-- The last window's marks take their number off the output of DECODE.DEFAULT (R134). -/
theorem length_decodeWindows_default {s : State} {k : Nat} {out : List Byte}
    (hrun : decodeWindows (windowAt s.charBuf) (decWindow s.params) (decTail s.params) (k + 1) 0 = .output out) :
    ∃ m, m ≤ 3 ∧ out.length + m = 4 * (k + 1) ∧ TrailingMarks s k m := by
  obtain ⟨f, hf, rfl⟩ := (decodeWindows_eq_output _ _ _ _ _ _).mp hrun
  simp only [Nat.zero_add] at hf
  have hinner : ∀ i, i + 1 < k + 1 → (f i).length = 4 := fun i hi => by
    obtain ⟨t, -, hd⟩ := hf i (by omega)
    rw [windowDecoder_of_ne (by omega)] at hd
    exact length_decWindow hd
  obtain ⟨t, ht, hlast⟩ := hf k (by omega)
  rw [windowDecoder_of_eq rfl] at hlast
  obtain ⟨hlen, hm⟩ := length_decTail hlast
  refine ⟨markCount s.params t, hm, ?_, (trailingMarks_iff ht).mpr rfl⟩
  rw [length_flatMap_fours f k hinner, hlen]
  omega

/-- The number of an output's bytes in `OUT_LEN`, as it fits the buffer. -/
theorem toNat_outLen_commitBytes {s : State} (hp : s.params.Valid) {out : List Byte}
    (hfit : out.length ≤ s.params.bufCap) : (commitBytes s out).outLen.toNat = out.length :=
  toNat_ofNat_of_fits hp hfit

/-- Settles O33: each command's success says its output's length, which fits `OUT_LEN`. -/
theorem outputLengths : Obligations.OutputLengths := by
  rintro s t _ hp rfl herr
  refine ⟨fun h => ?_, fun h => ?_, fun h => ?_, fun h => ?_, fun h => ?_, fun h => ?_⟩
  · obtain ⟨hfit, ht⟩ := encodeDefault_success herr h
    exact ht.toNat_outLen hp hfit
  · obtain ⟨hfit, ht⟩ := encodePadded_success herr h
    exact ht.toNat_outLen hp hfit
  · obtain ⟨hwhole, hfit, ht⟩ := encodeStrict_success herr h
    rw [ht.toNat_outLen hp hfit]
    exact ⟨hwhole, by omega⟩
  · obtain ⟨hin, hwhole, out, hlen, rfl⟩ := decodeStrict_success herr h
    rw [toNat_outLen_commitBytes hp (by omega), hlen]
    exact ⟨hwhole, by omega⟩
  · obtain ⟨hin, hwhole, out, hrun, rfl⟩ := decodeDefault_success herr h
    refine ⟨hwhole, ?_⟩
    cases hk : s.inLen.toNat / 5 with
    | zero =>
      rw [hk, decodeWindows] at hrun
      obtain rfl := DecodeRun.output.inj hrun
      exact ⟨0, by decide, rfl, fun hpos => by omega, fun _ => rfl⟩
    | succ k =>
      rw [hk] at hrun
      obtain ⟨m, hm, hlen, hmarks⟩ := length_decodeWindows_default hrun
      rw [toNat_outLen_commitBytes hp (by omega)]
      exact ⟨m, hm, hlen, fun _ => hmarks, fun hzero => by omega⟩
  · obtain ⟨hfit, out, hlen, rfl⟩ := decodePadded_success herr h
    rw [toNat_outLen_commitBytes hp (by omega), hlen]

/-! ## The entries an encode writes -/

theorem exists_validChar_encodedEntry (s : State) (i : Nat) :
    ∃ k, encodedEntry s i = some k ∧ ValidChar s.params k := by
  have hdigit := digitOf_lt (inputBlock s (i / 5)) (i % 5)
  obtain ⟨k, hk⟩ := Option.ne_none_iff_exists'.mp (charOfDigit_ne_none s.params hdigit)
  exact ⟨k, hk, _, hdigit, hk⟩

theorem WroteChars.exists_validChar {s t : State} {len e : Nat} (h : WroteChars s t len (encodedEntry s))
    (he : e < len) : ∃ k, t.charBuf.read e = some k ∧ ValidChar s.params k := by
  rw [h.2.1 e he]
  exact exists_validChar_encodedEntry s e

/-- Settles O34: an encode's entries are characters, but for the places of the Default tail from `r + 1` on. -/
theorem alphabetClosure : Obligations.AlphabetClosure := by
  rintro i s t (rfl | rfl | rfl) hp hexec herr e he
  · obtain ⟨hfit, ht⟩ := encodeDefault_success herr hexec
    rw [ht.toNat_outLen hp hfit] at he ⊢
    have hplace : Instr.encodeDefault = .encodeDefault ∧ s.inLen.toNat % 4 ≠ 0 ∧
        5 * ceil4 s.inLen.toNat ≤ e + (4 - s.inLen.toNat % 4) ↔ ¬ 4 * (e / 5) + e % 5 ≤ s.inLen.toNat := by
      simp only [ceil4, true_and] at he ⊢
      omega
    rw [ht.2.1 e he, defaultEntry]
    by_cases hchar : 4 * (e / 5) + e % 5 ≤ s.inLen.toNat
    · rw [if_neg (fun hmark => hplace.mp hmark hchar), if_pos hchar]
      exact exists_validChar_encodedEntry s e
    · rw [if_pos (hplace.mpr hchar), if_neg hchar]
  · obtain ⟨-, hfit, ht⟩ := encodeStrict_success herr hexec
    rw [ht.toNat_outLen hp hfit] at he
    rw [if_neg fun hdefault => Instr.noConfusion hdefault.1]
    exact ht.exists_validChar he
  · obtain ⟨hfit, ht⟩ := encodePadded_success herr hexec
    rw [ht.toNat_outLen hp hfit] at he
    rw [if_neg fun hdefault => Instr.noConfusion hdefault.1]
    exact ht.exists_validChar he

/-! ## Bad inputs -/

/-- A decode whose loop ends at a bad character answers with INVALID_CHARACTER (R171). -/
theorem finishDecode_of_badChar {s : State} {run : DecodeRun} (hrun : ∃ j, run = .badChar j) :
    ∃ t, finishDecode s run = .next t ∧ t.err = 2 := by
  obtain ⟨j, rfl⟩ := hrun
  exact ⟨_, rfl, rfl⟩

/-- A decode of whole windows, its input written, reports INVALID_CHARACTER when one of its windows fails. -/
theorem wholeDecode_rejects {s : State} {last : Quint Word → Option (List Byte)}
    (hin : s.inLen.toNat ≤ s.params.bufCap) (hwritten : CharsWritten s) (hwhole : s.inLen.toNat % 5 = 0) {w : Nat}
    (hw : w < s.inLen.toNat / 5)
    (hfail : ∀ t, windowAt s.charBuf w = some t →
      windowDecoder (decWindow s.params) last (s.inLen.toNat / 5) w t = none) :
    ∃ t, wholeDecode s last = .next t ∧ t.err = 2 := by
  rw [wholeDecode_of_fits last hin (show s.inLen.toNat = 5 * (s.inLen.toNat / 5) by omega)]
  exact finishDecode_of_badChar
    ((windowsOf_windowAt s.charBuf).decodeWindows_rejects (fun i hi => hwritten i (by omega)) hw hfail)

/-- Settles O35: the window of the bad character fails, so the loop over the written input ends at some window. -/
theorem decodeRejection : Obligations.DecodeRejection := by
  rintro s hp hin hwritten
  refine ⟨?_, ?_, ?_⟩
  · rintro hwhole ⟨i, hi, hbad⟩
    rw [← Nat.div_add_mod i 5] at hbad
    refine wholeDecode_rejects hin hwritten hwhole (w := i / 5) (by omega) fun t ht => ?_
    rw [windowDecoder_self]
    exact decWindow_of_badEntry hp ht (Nat.mod_lt _ (by decide)) hbad
  · rintro hwhole ⟨i, hi, hbad, hunmarked⟩
    rw [← Nat.div_add_mod i 5] at hbad
    refine wholeDecode_rejects hin hwritten hwhole (w := i / 5) (by omega) fun t ht => ?_
    by_cases hlast : i / 5 + 1 = s.inLen.toNat / 5
    · rw [windowDecoder_of_eq hlast]
      have hmarks : TrailingMarks s (i / 5) (markCount s.params t) := (trailingMarks_iff ht).mpr rfl
      have hwindow : s.inLen.toNat / 5 - 1 = i / 5 := by omega
      have hbefore := hunmarked _ (hwindow.symm ▸ hmarks)
      exact decTail_of_badEntry hp ht hmarks (by omega) hbad
    · rw [windowDecoder_of_ne hlast]
      exact decWindow_of_badEntry hp ht (Nat.mod_lt _ (by decide)) hbad
  · rintro hout ⟨i, hi, hbad⟩
    obtain ⟨window, hwin, hexec⟩ := exec_decodePadded_of_fits hin hout hwritten
    rw [← Nat.div_add_mod i 5] at hi hbad
    rw [hexec]
    exact finishDecode_of_badChar (hwin.decodeWindows_rejects (fun _ => paddedEntry_ne_none hwritten)
      (show i / 5 < ceil5 s.inLen.toNat by simp only [ceil5]; omega)
      (padded_decoder_of_badEntry hp hwin (Nat.mod_lt _ (by decide)) hi hbad))

end Sys2Proof.Machine
end

section
/-! SUPPORT. How a command fails (R170-R174): the errors each can report, what a failure writes, and its repetition. -/

namespace Sys2Proof.Machine

/-! ## What a command reports -/

section
variable {s t : State}

/-- Only a decode's bad window reports a window other than 0, and its error is INVALID_CHARACTER (R26, R170). -/
theorem CommandEnd.errWin_eq_zero (h : CommandEnd s t) (herr : t.err ≠ 2) : t.errWin = 0 := by
  cases h with
  | badWindow j => exact absurd rfl herr
  | _ => rfl

theorem exec_enc4_err (h : exec .enc4 s = .next t) : t.err = 0 := by
  obtain rfl := Host.Outcome.next.inj ((execEnc4_eq s).symm.trans h)
  rfl

theorem exec_dec5_err (h : exec .dec5 s = .next t) : t.errWin = 0 ∧ (t.err = 0 ∨ t.err = 2) := by
  obtain ⟨-, rfl⟩ | ⟨v, -, rfl⟩ := execDec5_next h
  · exact ⟨rfl, .inr rfl⟩
  · exact ⟨rfl, .inl rfl⟩

theorem exec_encodeDefault_err (h : exec .encodeDefault s = .next t) : t.err = 0 ∨ t.err = 4 := by
  obtain rfl | ⟨-, -, bs, -, rfl⟩ := execEncodeDefault_next h
  · exact .inr rfl
  · exact .inl rfl

theorem exec_encodeStrict_err (h : exec .encodeStrict s = .next t) : t.err = 0 ∨ t.err = 1 ∨ t.err = 4 := by
  obtain rfl | ⟨-, rfl⟩ | ⟨-, -, -, bs, -, rfl⟩ := execEncodeStrict_next h
  · exact .inr (.inr rfl)
  · exact .inr (.inl rfl)
  · exact .inl rfl

theorem exec_encodePadded_err (h : exec .encodePadded s = .next t) : t.err = 0 ∨ t.err = 4 := by
  obtain rfl | ⟨-, -, bs, -, rfl⟩ := execEncodePadded_next h
  · exact .inr rfl
  · exact .inl rfl

/-- A decode of whole windows can fail by a check of its capacity or length, or by a bad window (R173). -/
theorem wholeDecode_err {last : Quint Word → Option (List Byte)} (h : wholeDecode s last = .next t) :
    t.err = 0 ∨ t.err = 1 ∨ t.err = 2 ∨ t.err = 4 := by
  rw [wholeDecode] at h
  split at h
  · obtain rfl := Host.Outcome.next.inj h
    exact .inr (.inr (.inr rfl))
  split at h
  · obtain rfl := Host.Outcome.next.inj h
    exact .inr (.inl rfl)
  obtain ⟨out, -, rfl⟩ | ⟨j, -, rfl⟩ := (finishDecode_eq_next _ _ _).mp h
  · exact .inl rfl
  · exact .inr (.inr (.inl rfl))

theorem exec_decodePadded_err (h : exec .decodePadded s = .next t) : t.err = 0 ∨ t.err = 2 ∨ t.err = 4 := by
  obtain rfl | ⟨-, -, cs, -, ⟨out, -, rfl⟩ | ⟨j, -, rfl⟩⟩ := execDecodePadded_next h
  · exact .inr (.inr rfl)
  · exact .inl rfl
  · exact .inr (.inl rfl)

theorem exec_rdalpha_err {a : Code} (ha : a.toNat < 85) (h : exec (.rdalpha a) s = .next t) : t.err = 0 := by
  obtain rfl := Host.Outcome.next.inj ((exec_rdalpha_of_lt ha s).symm.trans h)
  rfl

end

/-- Settles O36: the window rule holds of every end of a command, and each command's own ends have its errors. -/
theorem errorKindsOfEachCommand : Obligations.ErrorKindsOfEachCommand := by
  intro i s t hwf h
  refine ⟨(exec_ends h).errWin_eq_zero, ?_, ?_⟩
  · rintro rfl
    exact (exec_dec5_err h).1
  · cases i with
    | enc4 => exact exec_enc4_err h
    | dec5 => exact (exec_dec5_err h).2
    | encodeDefault => exact exec_encodeDefault_err h
    | encodeStrict => exact exec_encodeStrict_err h
    | encodePadded => exact exec_encodePadded_err h
    | decodeDefault => exact wholeDecode_err ((exec_decodeDefault s).symm.trans h)
    | decodeStrict => exact wholeDecode_err ((exec_decodeStrict s).symm.trans h)
    | decodePadded => exact exec_decodePadded_err h
    | rdalpha a => exact exec_rdalpha_err (of_decide_eq_true hwf) h

/-! ## What a failure writes -/

/-- A command that fails writes nothing but its status and, as a buffer command, `OUT_LEN` (R174). -/
theorem EndsAs.eq_of_failed {i : Instr} {s t : State} (h : EndsAs s i t) (herr : t.err ≠ 0) :
    t = { s with
      err := t.err, errWin := t.errWin, outLen := if isBufferCommand i = true then 0 else s.outLen } := by
  cases h with
  | raised hi kind win => rw [hi]; rfl
  | bufferRaised hi kind win => rw [if_pos hi]; rfl
  | _ => exact absurd rfl herr

/-- Settles O37: of a command's ends only its failures report an error, and an illegal word raises ILLEGAL_COMMAND. -/
theorem failureEffects : Obligations.FailureEffects :=
  ⟨fun _ _ _ h herr => ⟨(exec_endsAs h).eq_of_failed herr, (exec_ends h).errWin_eq_zero⟩,
    fun s _ _ hill => issueCommand_of_illegal hill s⟩

/-! ## A repeated failure -/

/-- A buffer command never reads `OUT_LEN`, and each of its ends overwrites it (R130, R174). -/
theorem exec_outLen_of_isBufferCommand {i : Instr} (hi : isBufferCommand i = true) (s : State) (len : Word) :
    exec i { s with outLen := len } = exec i s := by
  cases i with
  | enc4 | dec5 | rdalpha => cases hi
  | _ => rfl

/-- What a failure writes (R174) is nothing that the command reads, and all of it is overwritten. -/
theorem exec_of_failed (i : Instr) (s : State) (e : BitVec 3) (win : Word) :
    exec i { s with err := e, errWin := win, outLen := if isBufferCommand i = true then 0 else s.outLen } =
      exec i s := by
  refine (statusIsNeverRead i { s with outLen := if isBufferCommand i = true then 0 else s.outLen } e win).trans ?_
  split
  · next hi => exact exec_outLen_of_isBufferCommand hi s 0
  · rfl

/-- Settles O38: the failed state differs from the one before only in what the failure wrote, so the command answers as
before. -/
theorem failureRepeatsIdentically : Obligations.FailureRepeatsIdentically := by
  intro i s t h herr
  have hfailed := (exec_endsAs h).eq_of_failed herr
  calc exec i t = exec i { s with
          err := t.err, errWin := t.errWin, outLen := if isBufferCommand i = true then 0 else s.outLen } :=
        congrArg (exec i) hfailed
    _ = exec i s := exec_of_failed i s t.err t.errWin
    _ = .next t := h

end Sys2Proof.Machine
end

section
/-! SUPPORT. Reads of entries never written (I3, R193, R198): the host's own, and those of the buffer commands. -/

namespace Sys2Proof.Machine

/-! ## Host reads -/

theorem hostBufRead_unwritten {s : State} {b : Buffer} {i : Nat} (hi : i < s.params.bufCap)
    (hentry : entryReply s b i = none) : hostBufRead b i s = .fault (.unwrittenEntry b) := by
  rw [hostBufRead, if_neg (Nat.not_le.mpr hi), hentry]

/-- Settles O12: an index below the capacity passes the check, and an entry never written gives no reply. -/
theorem unwrittenHostReadFaults : Obligations.UnwrittenHostReadFaults := by
  refine fun s i rest hi => ⟨fun hpend hnone => ?_, fun hpend hnone => ?_⟩
  · have hentry : entryReply (takeAction s rest) .byteBuf i = none := congrArg (Option.map Reply.byte) hnone
    exact (step_of_pending_cons hpend).trans (hostBufRead_unwritten hi hentry)
  · have hentry : entryReply (takeAction s rest) .charBuf i = none := congrArg (Option.map Reply.word) hnone
    exact (step_of_pending_cons hpend).trans (hostBufRead_unwritten hi hentry)

/-! ## Encodes -/

/-- An encode whose checks have passed reads its whole input before anything else (log entry 13). -/
theorem encodeBuffer_of_unwritten {s : State} (tail : List Byte → List Word) (h : ¬ BytesWritten s) :
    encodeBuffer s tail = .fault (.unwrittenEntry .byteBuf) := by
  refine (encodeBuffer_eq_fault s tail).mpr ?_
  simpa [BytesWritten] using h

theorem roundingEncode_of_unwritten {s : State} (tail : List Byte → List Word)
    (hfit : 5 * ceil4 s.inLen.toNat ≤ s.params.bufCap) (h : ¬ BytesWritten s) :
    roundingEncode s tail = .fault (.unwrittenEntry .byteBuf) := by
  rw [roundingEncode, if_neg (by simp only [ceil4] at hfit; omega), if_neg (Nat.not_lt.mpr hfit)]
  exact encodeBuffer_of_unwritten tail h

theorem exec_encodeStrict_of_unwritten {s : State} (hwhole : s.inLen.toNat % 4 = 0)
    (hfit : 5 * (s.inLen.toNat / 4) ≤ s.params.bufCap) (h : ¬ BytesWritten s) :
    exec .encodeStrict s = .fault (.unwrittenEntry .byteBuf) := by
  rw [exec_encodeStrict, execEncodeStrict, if_neg (by omega), if_neg (not_not.mpr hwhole),
    if_neg (Nat.not_lt.mpr hfit)]
  exact encodeBuffer_of_unwritten _ h

/-! ## Decodes -/

/-- DECODE.PADDED reads its whole input before it examines a window (log entry 13). -/
theorem exec_decodePadded_of_unwritten {s : State} (hin : s.inLen.toNat ≤ s.params.bufCap)
    (hout : 4 * ceil5 s.inLen.toNat ≤ s.params.bufCap) (h : ¬ CharsWritten s) :
    exec .decodePadded s = .fault (.unwrittenEntry .charBuf) := by
  have hread : s.charBuf.readRange 0 s.inLen.toNat = none := by
    refine (Memory.readRange_eq_none _ _ _).mpr ?_
    simpa [CharsWritten] using h
  rw [exec_decodePadded, execDecodePadded, if_neg (Nat.not_lt.mpr hin), if_neg (Nat.not_lt.mpr hout), hread]

/-- The loop stops at a window with an entry never written when the characters before it are good. -/
theorem WindowsOf.decodeWindows_unwritten {p : Params} {window : Nat → Option (Quint Word)}
    {entry : Nat → Option Word} (hwin : WindowsOf window entry) {last : Quint Word → Option (List Byte)} {k w : Nat}
    (hp : p.Valid) (hw : w < k) (hgood : ∀ i, i < 5 * w → ∃ c, entry i = some c ∧ ValidChar p c)
    (hnone : window w = none) : decodeWindows window (decWindow p) last k 0 = .unwritten := by
  refine (decodeWindows_eq_unwritten _ _ _ _ _).mpr ⟨w, hw, fun j hj => ?_, ?_⟩
  · rw [Nat.zero_add, windowDecoder_of_ne (by omega)]
    exact hwin.exists_decWindow hp fun q hq => hgood (5 * j + q) (by omega)
  · rw [Nat.zero_add, hnone]

/-- The loop over a written string never stops so. -/
theorem WindowsOf.decodeWindows_ne_unwritten {window : Nat → Option (Quint Word)} {entry : Nat → Option Word}
    (hwin : WindowsOf window entry) {full last : Quint Word → Option (List Byte)} {k : Nat}
    (hwritten : ∀ i, i < 5 * k → entry i ≠ none) : decodeWindows window full last k 0 ≠ .unwritten := by
  intro hrun
  obtain ⟨j, hj, -, hnone⟩ := (decodeWindows_eq_unwritten _ _ _ _ _).mp hrun
  obtain ⟨t, ht⟩ := hwin.exists_window fun q hq => hwritten (5 * j + q) (by omega)
  rw [Nat.zero_add, ht] at hnone
  cases hnone

theorem wholeDecode_of_unwrittenWindow {s : State} (last : Quint Word → Option (List Byte)) (hp : s.params.Valid)
    (hin : s.inLen.toNat ≤ s.params.bufCap) (hwhole : s.inLen.toNat % 5 = 0) {w q : Nat} (hw : 5 * w < s.inLen.toNat)
    (hgood : ∀ i, i < 5 * w → GoodEntry s i) (hq : q < 5) (hnone : s.charBuf.read (5 * w + q) = none) :
    wholeDecode s last = .fault (.unwrittenEntry .charBuf) := by
  have hwindow : windowAt s.charBuf w = none := (windowAt_eq_none _ _).mpr ⟨q, hq, hnone⟩
  rw [wholeDecode_of_fits last hin (show s.inLen.toNat = 5 * (s.inLen.toNat / 5) by omega),
    (windowsOf_windowAt s.charBuf).decodeWindows_unwritten hp (by omega) hgood hwindow]
  rfl

/-- Settles O43: an encode and DECODE.PADDED read their input whole, and the loop of the other decodes comes to the
window of the entry. -/
theorem unwrittenOperandFaults : Obligations.UnwrittenOperandFaults := by
  rintro s _ hp rfl hin
  refine ⟨fun hfit hbytes => ⟨?_, ?_, fun hwhole => ?_⟩, exec_decodePadded_of_unwritten hin,
    fun w q hwhole hw hgood hq hnone => ⟨?_, ?_⟩⟩
  · exact roundingEncode_of_unwritten (encTail s.params) hfit hbytes
  · exact roundingEncode_of_unwritten (padTail s.params) hfit hbytes
  · exact exec_encodeStrict_of_unwritten hwhole (by omega) hbytes
  · exact wholeDecode_of_unwrittenWindow (decWindow s.params) hp hin hwhole hw hgood hq hnone
  · exact wholeDecode_of_unwrittenWindow (decTail s.params) hp hin hwhole hw hgood hq hnone

end Sys2Proof.Machine
end

section
/-! SUPPORT. What the host asks for within the interface completes (R64, R195): a command stops only on an entry of its
input that was never written, and no other host action stops at all. -/

namespace Sys2Proof.Machine

/-! ## Commands -/

/-- The outcomes of a command that completes when `written` holds: a next state, or, where `written` fails, the fault
of an entry never written. A refusal is none of them. -/
inductive CompletesIf (written : Prop) : StepResult → Prop where
  | next (t : State) : CompletesIf written (.next t)
  | fault (b : Buffer) (h : ¬ written) : CompletesIf written (.fault (.unwrittenEntry b))

theorem CompletesIf.exists_next {written : Prop} {o : StepResult} (h : CompletesIf written o) (hw : written) :
    ∃ t, o = .next t := by
  cases h with
  | next t => exact ⟨t, rfl⟩
  | fault b hnot => exact absurd hw hnot

theorem CompletesIf.ne_refused {written : Prop} {o : StepResult} (h : CompletesIf written o) (r : Refusal) :
    o ≠ .refused r := by
  cases h <;> exact nofun

section
variable (s : State)

theorem execDec5_completesIf : CompletesIf True (execDec5 s) := by
  rw [execDec5]
  split <;> exact .next _

theorem execRdalpha_completesIf (a : Code) : CompletesIf True (execRdalpha a s) := by
  rw [execRdalpha]
  split <;> exact .next _

theorem encodeBuffer_completesIf (tail : List Byte → List Word) :
    CompletesIf (BytesWritten s) (encodeBuffer s tail) := by
  by_cases hwritten : BytesWritten s
  · obtain ⟨bs, -, hbuf⟩ := encodeBuffer_of_bytesWritten tail hwritten
    exact hbuf ▸ .next _
  · exact encodeBuffer_of_unwritten tail hwritten ▸ .fault _ hwritten

theorem roundingEncode_completesIf (tail : List Byte → List Word) :
    CompletesIf (BytesWritten s) (roundingEncode s tail) := by
  rw [roundingEncode]
  split_ifs
  · exact .next _
  · exact .next _
  · exact encodeBuffer_completesIf s tail

theorem execEncodeStrict_completesIf : CompletesIf (BytesWritten s) (execEncodeStrict s) := by
  rw [execEncodeStrict]
  split_ifs
  · exact .next _
  · exact .next _
  · exact .next _
  · exact encodeBuffer_completesIf s _

theorem finishDecode_completesIf {written : Prop} {run : DecodeRun} (h : written → run ≠ .unwritten) :
    CompletesIf written (finishDecode s run) := by
  cases run with
  | output bytes => exact .next _
  | badChar j => exact .next _
  | unwritten => exact .fault _ fun hw => h hw rfl

theorem wholeDecode_completesIf (last : Quint Word → Option (List Byte)) :
    CompletesIf (CharsWritten s) (wholeDecode s last) := by
  rw [wholeDecode]
  split_ifs
  · exact .next _
  · exact .next _
  · exact finishDecode_completesIf s fun hwritten =>
      (windowsOf_windowAt s.charBuf).decodeWindows_ne_unwritten fun i hi => hwritten i (by omega)

theorem exec_decodePadded_completesIf : CompletesIf (CharsWritten s) (exec .decodePadded s) := by
  by_cases hexceeds : s.params.bufCap < s.inLen.toNat ∨ s.params.bufCap < 4 * ceil5 s.inLen.toNat
  · exact exec_decodePadded_of_exceeds hexceeds ▸ .next _
  obtain ⟨hin, hout⟩ := not_or.mp hexceeds
  rw [Nat.not_lt] at hin hout
  by_cases hwritten : CharsWritten s
  · obtain ⟨window, hwin, hexec⟩ := exec_decodePadded_of_fits hin hout hwritten
    rw [hexec]
    exact finishDecode_completesIf s fun _ =>
      hwin.decodeWindows_ne_unwritten fun _ => paddedEntry_ne_none hwritten
  · exact exec_decodePadded_of_unwritten hin hout hwritten ▸ .fault _ hwritten

/-- Every command completes when the operand entries R193 names are written, and none is ever refused. -/
theorem exec_completesIf (i : Instr) : CompletesIf (OperandsWritten s i) (exec i s) := by
  cases i with
  | enc4 => exact .next _
  | dec5 => exact execDec5_completesIf s
  | encodeDefault => exact roundingEncode_completesIf s (encTail s.params)
  | encodeStrict => exact execEncodeStrict_completesIf s
  | encodePadded => exact roundingEncode_completesIf s (padTail s.params)
  | decodeDefault => exact wholeDecode_completesIf s (decTail s.params)
  | decodeStrict => exact wholeDecode_completesIf s (decWindow s.params)
  | decodePadded => exact exec_decodePadded_completesIf s
  | rdalpha a => exact execRdalpha_completesIf s a

end

/-! ## Host actions -/

section
variable {s : State}

/-- A word written to `CMD` completes, and the host's actions to come are no command's to write (R24). -/
theorem issueCommand_completes {w : Word} (hwritten : ∀ i, decode w = .command i → OperandsWritten s i) :
    ∃ t, issueCommand w s = .next t ∧ t.pending = s.pending := by
  cases hdec : decode w with
  | command i =>
    obtain ⟨t, hexec⟩ := (exec_completesIf s i).exists_next (hwritten i hdec)
    obtain ⟨-, -, -, -, hpending, -⟩ := (exec_ends hexec).operands_eq
    exact ⟨t, (issueCommand_of_command hdec s).trans hexec, hpending⟩
  | illegal why => exact ⟨_, issueCommand_of_illegal hdec s, rfl⟩

theorem hostRegWrite_completes {offset : Nat} {v : Word} (halign : offset % 4 = 0)
    (hwritten : offset = 0 → ∀ i, decode v = .command i → OperandsWritten s i) :
    ∃ t, hostRegWrite offset v s = .next t ∧ t.pending = s.pending := by
  rw [hostRegWrite, if_neg (not_not_intro halign)]
  by_cases hreg : offset ∈ registerOffsets
  · obtain ⟨r, -, rfl⟩ := List.mem_map.mp hreg
    rw [regAt_offset]
    cases r with
    | cmd => exact issueCommand_completes (hwritten rfl)
    | _ => exact ⟨_, rfl, rfl⟩
  · rw [regAt_reserved hreg]
    exact ⟨s, rfl, rfl⟩

theorem hostRegRead_of_aligned {offset : Nat} (halign : offset % 4 = 0) :
    hostRegRead offset s = .next (reply s (.word (regValue offset s))) :=
  if_neg (not_not_intro halign)

/-- A written entry has a reply of its buffer's kind. -/
theorem exists_entryReply {b : Buffer} {i : Nat} (hentry : EntryWritten s b i) : ∃ r, entryReply s b i = some r := by
  cases b with
  | byteBuf =>
    obtain ⟨x, hx⟩ := Option.ne_none_iff_exists'.mp hentry
    exact ⟨.byte x, congrArg (Option.map Reply.byte) hx⟩
  | charBuf =>
    obtain ⟨x, hx⟩ := Option.ne_none_iff_exists'.mp hentry
    exact ⟨.word x, congrArg (Option.map Reply.word) hx⟩

/-- What R64 asks of the host is nothing about the actions still to come. -/
theorem operandsWritten_takeAction (rest : List HostAction) (i : Instr) :
    OperandsWritten (takeAction s rest) i ↔ OperandsWritten s i := by
  cases i <;> rfl

theorem perform_completes {a : HostAction} {rest : List HostAction} (h : WellBehaved s a) :
    ∃ t, perform a (takeAction s rest) = .next t ∧ t.pending = rest := by
  cases a with
  | regWrite offset v =>
    obtain ⟨halign, hwritten⟩ := h
    exact hostRegWrite_completes halign fun h0 i hdec => (operandsWritten_takeAction rest i).mpr (hwritten h0 i hdec)
  | regRead offset => exact ⟨_, hostRegRead_of_aligned h, rfl⟩
  | bufWrite b i v =>
    cases b with
    | byteBuf => exact ⟨_, hostBufWrite_byteBuf (s := takeAction s rest) h v, rfl⟩
    | charBuf => exact ⟨_, hostBufWrite_charBuf (s := takeAction s rest) h v, rfl⟩
  | bufRead b i =>
    obtain ⟨hi, hentry⟩ := h
    obtain ⟨r, hr⟩ := exists_entryReply hentry
    exact ⟨_, hostBufRead_written (s := takeAction s rest) hi hr, rfl⟩
  | reset => exact ⟨_, rfl, rfl⟩

end

/-- Settles O42: each host action completes under R64's conditions, and a command's outcomes are two, neither of them a
refusal. -/
theorem wellBehavedActionsComplete : Obligations.WellBehavedActionsComplete := by
  refine ⟨fun s a rest hpend hwell => ?_, fun i s => (exec_completesIf s i).ne_refused⟩
  rw [step_of_pending_cons hpend]
  exact perform_completes hwell

end Sys2Proof.Machine
end

section
/-! SUPPORT. The state after reset (R190). -/

namespace Sys2Proof.Machine

/-- Every register of a block just reset reads 0 (R190). -/
theorem readReg_resetWith (p : Params) (r : Reg) : readReg (State.resetWith p) r = 0 := by
  cases r <;> rfl

/-- So does every offset, a reserved one included (R53). -/
theorem regValue_resetWith (p : Params) (offset : Nat) : regValue offset (State.resetWith p) = 0 := by
  rw [regValue]
  split
  · rfl
  · exact readReg_resetWith p _

/-- Settles O13: reset's values by computation, and a register read at them by its rule. -/
theorem resetValues : Obligations.ResetValues := by
  refine ⟨fun s rest hpend => step_of_pending_cons hpend, rfl, fun offset halign => ?_, fun _ => rfl, fun _ => rfl⟩
  calc step { State.reset with pending := [.regRead offset] }
      = hostRegRead offset State.reset := step_of_pending_cons (a := .regRead offset) (rest := []) rfl
    _ = .next (reply State.reset (.word (regValue offset State.reset))) := hostRegRead_of_aligned halign
    _ = .next { State.reset with replies := [.word 0] } := by
      rw [State.reset, regValue_resetWith]
      rfl

/-- Settles O45: the chip's parameters are legal, and reset's values meet the invariant for all that are. -/
theorem resetMeetsTheInvariant : Obligations.ResetMeetsTheInvariant := resetWith_inv chipParams_valid

end Sys2Proof.Machine
end
